-- ==== Sys2Proof/Word.lean ====
section
/-! DEFINITION. The byte and the byte sequence (00_scope.md R9, R10), and the seven-byte timestamp value
(10_state.md R27). -/

namespace Sys2Proof

/-- A byte: bits 7 (most significant) to 0 (least significant), R9. -/
abbrev Byte := BitVec 8

/-- A finite byte sequence, index 0 first (R10): an input buffer (R40) or an output frame (R42). -/
abbrev Bytes := List Byte

/-- A timestamp value: exactly seven opaque bytes `ts[0..6]` (R27). -/
structure Timestamp where
  b0 : Byte
  b1 : Byte
  b2 : Byte
  b3 : Byte
  b4 : Byte
  b5 : Byte
  b6 : Byte
  deriving DecidableEq, Repr

/-- The seven bytes in index order. -/
def Timestamp.bytes (t : Timestamp) : Bytes := [t.b0, t.b1, t.b2, t.b3, t.b4, t.b5, t.b6]

end Sys2Proof
end

