-- ==== Sys2Proof/Config.lean ====
section
/-! DEFINITION. The implementation parameters (00_scope.md R6, R7, R8) and the values the spec leaves to others. -/

namespace Sys2Proof

/-- Which `IOA_CODEC` the host supplied (R7, 70_reset_and_hazards.md R182(2)). The spec makes it a parameter of the
model (92 D5 OPEN, 91 N1), so it is a field of `Machine.State`, and a statement about every state holds for both. -/
inductive IoaCodec where
  /-- The spec's default instance: least-significant byte first, truncating (R7). -/
  | lsbFirst
  /-- Any other base collaborator: its bytes and its read-back are the uninterpreted constants below (log 4). -/
  | collaborator
  deriving DecidableEq, Repr

/-- Which `TS_CODEC` the host supplied (R8, 70_reset_and_hazards.md R182(2)): how a timestamp value stands to its seven
wire bytes (R6). The spec makes it a parameter of the model (92 D6 OPEN, 93 I7), so it is a field of `Machine.State`,
and a statement about every state holds for both. -/
inductive TsCodec where
  /-- The spec's instance: the value is the seven wire bytes, in index order (R8, R27). -/
  | identity
  /-- Any other external codec: the uninterpreted bijection `Config.tsWire` (log 13). -/
  | collaborator
  deriving DecidableEq, Repr

namespace Config

/-- `TS_WIDTH`, the 7 bytes of the timestamp field (R6). -/
def tsWidth : Nat := 7

/-- `QUAL_WIDTH`, the one byte of a qualifier, SCO or DCQ (R6). -/
def qualWidth : Nat := 1

/-- Byte `k` of the `A`-byte address representation a collaborator writes for `ioa`: `ioaWireByte ioa A k` (R7, R47).
No body: the spec fixes only that there are exactly `A` bytes (DESIGN CHOICE of the form, log 4; safe). -/
opaque ioaWireByte : Nat → Nat → Nat → Byte

/-- The address a collaborator reads from the `A` bytes it is given (R7). No body (log 4; safe). -/
opaque ioaReadBack : Bytes → Nat

/-- The seven wire bytes that an external timestamp codec gives each value, and, by its inverse, the value it reads from
them (R8). No body: the spec fixes only that the value is preserved, so writing and reading back are inverse on seven
bytes (R8, 92 D6; DEDUCED, log 13). -/
opaque tsWire : Timestamp ≃ Timestamp

/-- What `BufRead(buf, i)` would read at or past the end of the buffer. No rule reads there (R11), and no request of
the model does (Laws/Ops.lean, `bufRead_of_lt`); the value is left free so that nothing can rest on it (log 11; safe). -/
opaque beyondBuffer : Nat → Byte

end Config

end Sys2Proof
end

