-- ==== Sys2Proof/Syntax.lean ====
section
/-! DEFINITION. The value types requests carry (10_state.md section 5) and the requests themselves
(30_encoding.md R67, R70): one constructor of `Instr` per row of spec/opcode_table.json, each with its typed operands. -/

namespace Sys2Proof

/-- The five command kinds (10_state.md R28). -/
inductive Kind where
  | sc    -- SingleCommand
  | sct   -- SingleCommandWithTimestamp
  | dc    -- DoubleCommand
  | dct   -- DoubleCommandWithTimestamp
  | step  -- StepCommand
  deriving DecidableEq, Repr

/-- The two qualifier layouts (30_encoding.md R60, R61). -/
inductive QualLayout where
  | sco
  | dcq
  deriving DecidableEq, Repr

/-- `qk(kind)`: the qualifier layout of a kind (R28). -/
def Kind.qk : Kind → QualLayout
  | .sc => .sco
  | .sct => .sco
  | .dc => .dcq
  | .dct => .dcq
  | .step => .dcq

/-- `hasTs(kind)`: the kinds that carry a timestamp (R28, 42_timestamp.md R152). -/
def Kind.hasTs : Kind → Bool
  | .sc => false
  | .sct => true
  | .dc => false
  | .dct => true
  | .step => false

/-- A command object (R29). It keeps the qualifier byte itself, not its fields. That `ts` is present exactly for the
with-timestamp kinds is `Cmd.wf`. -/
structure Cmd where
  kind : Kind
  ioa  : Nat
  q    : Byte
  ts   : Option Timestamp
  deriving DecidableEq, Repr

/-- `CFG`, the configuration input of an ENCODE or DECODE request (R21). -/
structure Cfg where
  ioaWidth : Nat
  deriving DecidableEq, Repr

/-- The requests of the opcode map (R70), with the operands of their formats (R67). -/
inductive Instr where
  -- qualifier codec (40_qualifier_codec.md)
  | packSco (cmd sel : Bool) (qu : Int)
  | unpackSco (b : Byte)
  | packDcq (cmd : Int) (sel : Bool) (qu : Int)
  | unpackDcq (b : Byte)
  -- BUILD (41_command_variants.md section 1)
  | buildSc (ioa : Nat) (cmd sel : Bool) (qu : Int)
  | buildSct (ioa : Nat) (cmd sel : Bool) (qu : Int) (ts : Timestamp)
  | buildDc (ioa : Nat) (cmd : Int) (sel : Bool) (qu : Int)
  | buildDct (ioa : Nat) (cmd : Int) (sel : Bool) (qu : Int) (ts : Timestamp)
  | buildStep (ioa : Nat) (cmd : Int) (sel : Bool) (qu : Int)
  -- ENCODE (section 2)
  | encodeSc (cfg : Cfg) (f : Bytes) (o : Cmd)
  | encodeSct (cfg : Cfg) (f : Bytes) (o : Cmd)
  | encodeDc (cfg : Cfg) (f : Bytes) (o : Cmd)
  | encodeDct (cfg : Cfg) (f : Bytes) (o : Cmd)
  | encodeStep (cfg : Cfg) (f : Bytes) (o : Cmd)
  -- DECODE (section 3)
  | decodeSc (cfg : Cfg) (buf : Bytes) (off : Nat)
  | decodeSct (cfg : Cfg) (buf : Bytes) (off : Nat)
  | decodeDc (cfg : Cfg) (buf : Bytes) (off : Nat)
  | decodeDct (cfg : Cfg) (buf : Bytes) (off : Nat)
  | decodeStep (cfg : Cfg) (buf : Bytes) (off : Nat)
  -- accessors (section 4)
  | getIoa (o : Cmd)
  | getState (o : Cmd)
  | getSelect (o : Cmd)
  | getQu (o : Cmd)
  | getTs (o : Cmd)
  -- timestamp field (42_timestamp.md)
  | appendTs (f : Bytes) (ts : Timestamp)
  | readTs (buf : Bytes) (pos : Nat)
  deriving DecidableEq, Repr

/-- The ENCODE request of a kind (R70). -/
def Instr.encodeOf : Kind → Cfg → Bytes → Cmd → Instr
  | .sc => .encodeSc
  | .sct => .encodeSct
  | .dc => .encodeDc
  | .dct => .encodeDct
  | .step => .encodeStep

/-- The DECODE request of a kind (R70). -/
def Instr.decodeOf : Kind → Cfg → Bytes → Nat → Instr
  | .sc => .decodeSc
  | .sct => .decodeSct
  | .dc => .decodeDc
  | .dct => .decodeDct
  | .step => .decodeStep

end Sys2Proof
end

