-- ==== Sys2Proof/WellFormed.lean ====
section
/-! DEFINITION. Which terms are requests of the spec at all: the typing of operands (30_encoding.md R67, 10_state.md
R29). Integers, bytes and timestamps are well formed by their types; what is left to check is the object operand. -/

namespace Sys2Proof

/-- R29: a command object holds `ts = some t` exactly when `hasTs(kind)`, and `none` otherwise. -/
def Cmd.wf (o : Cmd) : Bool := o.ts.isSome == o.kind.hasTs

/-- The operands of a request have their types (R67): an object operand is a command object of R29. -/
def Instr.wf : Instr → Bool
  | .packSco _ _ _ => true
  | .unpackSco _ => true
  | .packDcq _ _ _ => true
  | .unpackDcq _ => true
  | .buildSc _ _ _ _ => true
  | .buildSct _ _ _ _ _ => true
  | .buildDc _ _ _ _ => true
  | .buildDct _ _ _ _ _ => true
  | .buildStep _ _ _ _ => true
  | .encodeSc _ _ o => o.wf
  | .encodeSct _ _ o => o.wf
  | .encodeDc _ _ o => o.wf
  | .encodeDct _ _ o => o.wf
  | .encodeStep _ _ o => o.wf
  | .decodeSc _ _ _ => true
  | .decodeSct _ _ _ => true
  | .decodeDc _ _ _ => true
  | .decodeDct _ _ _ => true
  | .decodeStep _ _ _ => true
  | .getIoa o => o.wf
  | .getState o => o.wf
  | .getSelect o => o.wf
  | .getQu o => o.wf
  | .getTs o => o.wf
  | .appendTs _ _ => true
  | .readTs _ _ => true

end Sys2Proof
end

