-- ==== Sys2Proof/Decode.lean ====
section
/-! DEFINITION. The request encoding (30_encoding.md Part B): the operation byte `OPC`, the typed operand bundles, the
decoder (by the FAMILY, SUB and K fields of R68, R69), and the encoder (by the opcode map of R70). -/

namespace Sys2Proof

/-- The operations the opcode map names (R70), without operands. -/
inductive Op where
  | packSco
  | unpackSco
  | packDcq
  | unpackDcq
  | build (k : Kind)
  | encode (k : Kind)
  | decode (k : Kind)
  | getIoa
  | getState
  | getSelect
  | getQu
  | getTs
  | appendTs
  | readTs
  deriving DecidableEq, Repr

/-- The request formats of R67. -/
inductive Format where
  | Q1 | Q2 | QB | B | E | D | G | TA | TR
  deriving DecidableEq, Repr

/-- The typed operand bundles of R67, one constructor per shape (format B has four: the type of `cmd` and the presence
of `ts` depend on the kind). -/
inductive Operands where
  | q1 (cmd sel : Bool) (qu : Int)
  | q2 (cmd : Int) (sel : Bool) (qu : Int)
  | qb (b : Byte)
  | bSco (ioa : Nat) (cmd sel : Bool) (qu : Int)
  | bScoTs (ioa : Nat) (cmd sel : Bool) (qu : Int) (ts : Timestamp)
  | bDcq (ioa : Nat) (cmd : Int) (sel : Bool) (qu : Int)
  | bDcqTs (ioa : Nat) (cmd : Int) (sel : Bool) (qu : Int) (ts : Timestamp)
  | e (cfg : Cfg) (f : Bytes) (o : Cmd)
  | d (cfg : Cfg) (buf : Bytes) (off : Nat)
  | g (o : Cmd)
  | ta (f : Bytes) (ts : Timestamp)
  | tr (buf : Bytes) (pos : Nat)
  deriving DecidableEq, Repr

/-- The format column of R70. -/
def Op.format : Op → Format
  | .packSco => .Q1
  | .unpackSco => .QB
  | .packDcq => .Q2
  | .unpackDcq => .QB
  | .build _ => .B
  | .encode _ => .E
  | .decode _ => .D
  | .getIoa => .G
  | .getState => .G
  | .getSelect => .G
  | .getQu => .G
  | .getTs => .G
  | .appendTs => .TA
  | .readTs => .TR

/-- The format a bundle has (R67). -/
def Operands.format : Operands → Format
  | .q1 _ _ _ => .Q1
  | .q2 _ _ _ => .Q2
  | .qb _ => .QB
  | .bSco _ _ _ _ => .B
  | .bScoTs _ _ _ _ _ => .B
  | .bDcq _ _ _ _ => .B
  | .bDcqTs _ _ _ _ _ => .B
  | .e _ _ _ => .E
  | .d _ _ _ => .D
  | .g _ => .G
  | .ta _ _ => .TA
  | .tr _ _ => .TR

/-! ## Decoding the operation byte -/

/-- R69: `K[2:1]` is the qualifier kind (single, double, step), `K[0]` is `hasTs`. Step with timestamp (`101`) and
`110`, `111` are reserved. -/
def kindOfCode (K : Nat) : Option Kind :=
  match K / 2, K % 2 with
  | 0, 0 => some .sc
  | 0, 1 => some .sct
  | 1, 0 => some .dc
  | 1, 1 => some .dct
  | 2, 0 => some .step
  | _, _ => none

/-- R68: the BUILD, ENCODE and DECODE families have `OPC[4:3] = 00` and `K` in `OPC[2:0]`. -/
def kindOfSub (sub : Nat) : Option Kind :=
  if sub / 8 = 0 then kindOfCode (sub % 8) else none

/-- R68, R70: operation number 0..3 of the qualifier family. -/
def qualifierOp : Nat → Option Op
  | 0 => some .packSco
  | 1 => some .unpackSco
  | 2 => some .packDcq
  | 3 => some .unpackDcq
  | _ => none

/-- R68, R70: accessor number 0..4. -/
def accessorOp : Nat → Option Op
  | 0 => some .getIoa
  | 1 => some .getState
  | 2 => some .getSelect
  | 3 => some .getQu
  | 4 => some .getTs
  | _ => none

/-- R68, R70: operation number 0..1 of the timestamp family. -/
def timestampOp : Nat → Option Op
  | 0 => some .appendTs
  | 1 => some .readTs
  | _ => none

/-- The operation an `OPC` byte names, by `FAMILY = OPC[7:5]` and `SUB = OPC[4:0]` (R68); `none` for a reserved
encoding (R71). It reads no operand (R165). -/
def decodeOpc (opc : Byte) : Option Op :=
  let family := (opc.extractLsb' 5 3).toNat
  let sub := (opc.extractLsb' 0 5).toNat
  match family with
  | 0 => qualifierOp sub
  | 1 => (kindOfSub sub).map .build
  | 2 => (kindOfSub sub).map .encode
  | 3 => (kindOfSub sub).map .decode
  | 4 => accessorOp sub
  | 5 => timestampOp sub
  | _ => none

/-! ## Decoding a request -/

/-- Put an operation and a bundle together; `none` where the bundle has not the shape the opcode fixes (R67). -/
def Op.assemble : Op → Operands → Option Instr
  | .packSco, .q1 cmd sel qu => some (.packSco cmd sel qu)
  | .unpackSco, .qb b => some (.unpackSco b)
  | .packDcq, .q2 cmd sel qu => some (.packDcq cmd sel qu)
  | .unpackDcq, .qb b => some (.unpackDcq b)
  | .build .sc, .bSco ioa cmd sel qu => some (.buildSc ioa cmd sel qu)
  | .build .sct, .bScoTs ioa cmd sel qu ts => some (.buildSct ioa cmd sel qu ts)
  | .build .dc, .bDcq ioa cmd sel qu => some (.buildDc ioa cmd sel qu)
  | .build .dct, .bDcqTs ioa cmd sel qu ts => some (.buildDct ioa cmd sel qu ts)
  | .build .step, .bDcq ioa cmd sel qu => some (.buildStep ioa cmd sel qu)
  | .encode k, .e cfg f o => some (.encodeOf k cfg f o)
  | .decode k, .d cfg buf off => some (.decodeOf k cfg buf off)
  | .getIoa, .g o => some (.getIoa o)
  | .getState, .g o => some (.getState o)
  | .getSelect, .g o => some (.getSelect o)
  | .getQu, .g o => some (.getQu o)
  | .getTs, .g o => some (.getTs o)
  | .appendTs, .ta f ts => some (.appendTs f ts)
  | .readTs, .tr buf pos => some (.readTs buf pos)
  | _, _ => none

/-- Why a pair `(OPC, operands)` spells no request. -/
inductive DecodeError where
  /-- `OPC` is a reserved encoding (R71). -/
  | reserved (opc : Byte)
  /-- The bundle has not the shape the format of `OPC` fixes (R67): not a pair of the spec (log 6). -/
  | operandShape (opc : Byte)
  /-- The object operand is no command object of R29 (log 6). -/
  | illFormedObject (opc : Byte)
  deriving DecidableEq, Repr

/-- The decoder, total on any byte and any bundle. A reserved `OPC` is rejected before any operand is looked at
(R165). -/
def decode (opc : Byte) (args : Operands) : Except DecodeError Instr :=
  match decodeOpc opc with
  | none => .error (.reserved opc)
  | some op =>
    match op.assemble args with
    | none => .error (.operandShape opc)
    | some i => if i.wf then .ok i else .error (.illFormedObject opc)

/-! ## Encoding a request -/

/-- The operation of a request (R70). -/
def Instr.op : Instr → Op
  | .packSco _ _ _ => .packSco
  | .unpackSco _ => .unpackSco
  | .packDcq _ _ _ => .packDcq
  | .unpackDcq _ => .unpackDcq
  | .buildSc _ _ _ _ => .build .sc
  | .buildSct _ _ _ _ _ => .build .sct
  | .buildDc _ _ _ _ => .build .dc
  | .buildDct _ _ _ _ _ => .build .dct
  | .buildStep _ _ _ _ => .build .step
  | .encodeSc _ _ _ => .encode .sc
  | .encodeSct _ _ _ => .encode .sct
  | .encodeDc _ _ _ => .encode .dc
  | .encodeDct _ _ _ => .encode .dct
  | .encodeStep _ _ _ => .encode .step
  | .decodeSc _ _ _ => .decode .sc
  | .decodeSct _ _ _ => .decode .sct
  | .decodeDc _ _ _ => .decode .dc
  | .decodeDct _ _ _ => .decode .dct
  | .decodeStep _ _ _ => .decode .step
  | .getIoa _ => .getIoa
  | .getState _ => .getState
  | .getSelect _ => .getSelect
  | .getQu _ => .getQu
  | .getTs _ => .getTs
  | .appendTs _ _ => .appendTs
  | .readTs _ _ => .readTs

/-- The `OPC` column of R70. -/
def Op.opc : Op → Byte
  | .packSco => 0x00
  | .unpackSco => 0x01
  | .packDcq => 0x02
  | .unpackDcq => 0x03
  | .build .sc => 0x20
  | .build .sct => 0x21
  | .build .dc => 0x22
  | .build .dct => 0x23
  | .build .step => 0x24
  | .encode .sc => 0x40
  | .encode .sct => 0x41
  | .encode .dc => 0x42
  | .encode .dct => 0x43
  | .encode .step => 0x44
  | .decode .sc => 0x60
  | .decode .sct => 0x61
  | .decode .dc => 0x62
  | .decode .dct => 0x63
  | .decode .step => 0x64
  | .getIoa => 0x80
  | .getState => 0x81
  | .getSelect => 0x82
  | .getQu => 0x83
  | .getTs => 0x84
  | .appendTs => 0xA0
  | .readTs => 0xA1

/-- The mnemonic column of R70. -/
def Op.mnemonic : Op → String
  | .packSco => "PACK_SCO"
  | .unpackSco => "UNPACK_SCO"
  | .packDcq => "PACK_DCQ"
  | .unpackDcq => "UNPACK_DCQ"
  | .build .sc => "BUILD.SC"
  | .build .sct => "BUILD.SCT"
  | .build .dc => "BUILD.DC"
  | .build .dct => "BUILD.DCT"
  | .build .step => "BUILD.STEP"
  | .encode .sc => "ENCODE.SC"
  | .encode .sct => "ENCODE.SCT"
  | .encode .dc => "ENCODE.DC"
  | .encode .dct => "ENCODE.DCT"
  | .encode .step => "ENCODE.STEP"
  | .decode .sc => "DECODE.SC"
  | .decode .sct => "DECODE.SCT"
  | .decode .dc => "DECODE.DC"
  | .decode .dct => "DECODE.DCT"
  | .decode .step => "DECODE.STEP"
  | .getIoa => "GET_IOA"
  | .getState => "GET_STATE"
  | .getSelect => "GET_SELECT"
  | .getQu => "GET_QU"
  | .getTs => "GET_TS"
  | .appendTs => "APPEND_TS"
  | .readTs => "READ_TS"

/-- The operand bundle of a request (R67). -/
def Instr.operands : Instr → Operands
  | .packSco cmd sel qu => .q1 cmd sel qu
  | .unpackSco b => .qb b
  | .packDcq cmd sel qu => .q2 cmd sel qu
  | .unpackDcq b => .qb b
  | .buildSc ioa cmd sel qu => .bSco ioa cmd sel qu
  | .buildSct ioa cmd sel qu ts => .bScoTs ioa cmd sel qu ts
  | .buildDc ioa cmd sel qu => .bDcq ioa cmd sel qu
  | .buildDct ioa cmd sel qu ts => .bDcqTs ioa cmd sel qu ts
  | .buildStep ioa cmd sel qu => .bDcq ioa cmd sel qu
  | .encodeSc cfg f o => .e cfg f o
  | .encodeSct cfg f o => .e cfg f o
  | .encodeDc cfg f o => .e cfg f o
  | .encodeDct cfg f o => .e cfg f o
  | .encodeStep cfg f o => .e cfg f o
  | .decodeSc cfg buf off => .d cfg buf off
  | .decodeSct cfg buf off => .d cfg buf off
  | .decodeDc cfg buf off => .d cfg buf off
  | .decodeDct cfg buf off => .d cfg buf off
  | .decodeStep cfg buf off => .d cfg buf off
  | .getIoa o => .g o
  | .getState o => .g o
  | .getSelect o => .g o
  | .getQu o => .g o
  | .getTs o => .g o
  | .appendTs f ts => .ta f ts
  | .readTs buf pos => .tr buf pos

/-- The request `(OPC, operands)` that spells an instruction (R67). -/
def encode (i : Instr) : Byte × Operands := (i.op.opc, i.operands)

/-! ## The host's table words -/

/-- The all-zero timestamp, the operand of an instruction word whose operand bits are all zero (log 10). -/
def Timestamp.zero : Timestamp := ⟨0, 0, 0, 0, 0, 0, 0⟩

/-- The all-zero object: kind code `K = 000` (R69), address 0, qualifier 0, no timestamp (log 10). -/
def Cmd.zero : Cmd := ⟨.sc, 0, 0, none⟩

/-- The bundle of zeros of an operation's format: false, 0, empty sequences (log 10). -/
def Op.zeroOperands : Op → Operands
  | .packSco => .q1 false false 0
  | .unpackSco => .qb 0
  | .packDcq => .q2 0 false 0
  | .unpackDcq => .qb 0
  | .build .sc => .bSco 0 false false 0
  | .build .sct => .bScoTs 0 false false 0 .zero
  | .build .dc => .bDcq 0 0 false 0
  | .build .dct => .bDcqTs 0 0 false 0 .zero
  | .build .step => .bDcq 0 0 false 0
  | .encode _ => .e ⟨0⟩ [] .zero
  | .decode _ => .d ⟨0⟩ [] 0
  | .getIoa => .g .zero
  | .getState => .g .zero
  | .getSelect => .g .zero
  | .getQu => .g .zero
  | .getTs => .g .zero
  | .appendTs => .ta [] .zero
  | .readTs => .tr [] 0

/-- The bundle of zeros that goes with an `OPC` byte; a reserved byte reads no operand (R165), so any bundle will do. -/
def zeroOperands (opc : Byte) : Operands :=
  match decodeOpc opc with
  | some op => op.zeroOperands
  | none => .qb 0

/-- The instruction the decoder reads from a table row's word: `OPC` is the whole instruction (R72, one byte), and its
operands are zeros (log 10). -/
def decodeTableWord (nbits w : Nat) : Option Instr :=
  if nbits = 8 ∧ w < 256 then
    match decode (BitVec.ofNat 8 w) (zeroOperands (BitVec.ofNat 8 w)) with
    | .ok i => some i
    | .error _ => none
  else none

end Sys2Proof
end

