-- ==== Sys2Proof/Machine/State.lean ====
section
/-! DEFINITION. The state, the results of requests, the ways a step can stop, and reset. The block itself keeps nothing
between requests (10_state.md R20, R31): what stands here is the host's side of a run (R32, 70_reset_and_hazards.md
R188), which the block reads its inputs from and returns its results to. -/

namespace Sys2Proof.Machine

/-- The output value of a request that ends `OK`; each request's rule fixes the type (R22). -/
inductive Value where
  /-- PACK_SCO, PACK_DCQ: a qualifier byte (R26). -/
  | byte (b : Byte)
  /-- UNPACK_SCO: the triple (state, qu, sel) of R101. -/
  | scoFields (state : Bool) (qu : Nat) (sel : Bool)
  /-- UNPACK_DCQ: the triple (state, qu, sel) of R103. -/
  | dcqFields (state : Nat) (qu : Nat) (sel : Bool)
  /-- BUILD: a command object (R110 to R114). -/
  | cmd (o : Cmd)
  /-- ENCODE, APPEND_TS: the frame after the append (20_memory.md R42). -/
  | frame (f : Bytes)
  /-- DECODE: the object and the index after it (R130). -/
  | decoded (obj : Cmd) (next : Nat)
  /-- GET_STATE of an SCO kind, GET_SELECT (R141, R142). -/
  | bool (v : Bool)
  /-- GET_IOA, GET_STATE of a DCQ kind, GET_QU (R140, R141, R143). -/
  | nat (n : Nat)
  /-- GET_TS, READ_TS: seven bytes (R144, R151). -/
  | timestamp (t : Timestamp)
  deriving DecidableEq, Repr

/-- The faults a request can end with, each with the info recorded with it (60_exceptions.md R160). They are results of
a request, not stops of the machine (R169, R177). -/
inductive Cause where
  /-- Code 1: the start index, the needed length and the buffer's length. -/
  | malformedInput (start needed len : Nat)
  /-- Code 2: the reserved `OPC` byte. -/
  | illegalRequest (opc : Byte)
  /-- Code 3: the offending address width. -/
  | badConfig (width : Nat)
  /-- Code 4: the object's kind. -/
  | operandMismatch (kind : Kind)
  deriving DecidableEq, Repr

/-- What a request returns (R22). -/
inductive Result where
  | ok (v : Value)
  | fault (c : Cause)
  deriving DecidableEq, Repr

/-- A request as the host issues it: the host variable that receives an `ok` value (30_encoding.md R73), the operation
byte and the operand bundle (R67). -/
structure Request where
  dst  : Nat
  opc  : Byte
  args : Operands
  deriving DecidableEq, Repr

/-- The host variables written so far, by number (R23, R73; log 2). Its canonical form is `HostVars.wf`. -/
abbrev HostVars := List (Nat × Value)

/-- The state of a run. -/
structure State where
  /-- The requests the host has issued and the block has not performed yet, next first (R57, 92 D1; log 1). -/
  pending  : List Request
  /-- The host variables (R73, R188; log 2). -/
  vars     : HostVars
  /-- The result of the last request, `none` before the first (R22; log 8). No request reads it. -/
  result   : Option Result
  /-- The `IOA_CODEC` instance the host supplied (R7, R182(2); log 3). No request changes it. -/
  ioaCodec : IoaCodec
  /-- The `TS_CODEC` instance the host supplied (R8, R182(2); log 5). No request changes it. -/
  tsCodec  : TsCodec
  deriving DecidableEq, Repr

/-- The reasons a step can stop with a fault: NONE. "No behaviour of the block is `stuck`" (93 Part 1; R177): the
faults of R160 are values a request returns (`Cause`), and the step goes on. DEDUCED (log 7); safe: a type without
values allows no more than the spec does. -/
inductive Fault where
  deriving DecidableEq, Repr

/-- The reasons a step answers no state. -/
inductive Refusal where
  /-- Raised by an arm of `exec` whose instruction has no meaning yet (there is none); safe: nothing can be proved
  about a next state. -/
  | notModelled (mnemonic : String)
  /-- Raised by `step` when the host has issued no request: there is nothing to perform (R188: a run ends after the last
  request). Safe: the model stops (log 1). -/
  | noRequest
  /-- Raised by `step` when the operands have not the types the format of `OPC` fixes (R67: "Operands are typed"; R29):
  not a request of the spec. Safe: the model stops (log 6). -/
  | illTypedOperands
  deriving DecidableEq, Repr

/-- The three outcomes of a step of this machine. -/
abbrev Out := Host.Outcome State Fault Refusal

/-- The state right after reset. The block has no state to reset (R180); no request is pending, "no host variables
written and `status` unset" (95 Part 3), and the codecs are the spec's default instances of the two parameters
(R7, R8; DESIGN CHOICE, log 3 and log 5). -/
def State.reset : State where
  pending := []
  vars := []
  result := none
  ioaCodec := .lsbFirst
  tsCodec := .identity

end Sys2Proof.Machine
end

