-- ==== Sys2Proof/Machine/Flags.lean ====
section
/-! DEFINITION. The block has no flags and no condition codes (10_state.md R25: every instruction rule says "Flags
written: none"). Its one status output is `STATUS` (R22), the code of the last request's result (60_exceptions.md
R160). -/

namespace Sys2Proof.Machine

/-- The cause code of R160. -/
def Cause.code : Cause → Nat
  | .malformedInput _ _ _ => 1
  | .illegalRequest _ => 2
  | .badConfig _ => 3
  | .operandMismatch _ => 4

/-- `STATUS`: 0 for `ok`, the cause code for `fault` (R22). -/
def Result.status : Result → Nat
  | .ok _ => 0
  | .fault c => c.code

/-- The `STATUS` output: the last request's, unset before the first. -/
def State.status (s : State) : Option Nat := s.result.map Result.status

end Sys2Proof.Machine
end

