-- ==== Sys2Proof/Machine/Operands.lean ====
section
/-! DEFINITION. The bit fields of the two qualifier bytes (30_encoding.md R60 to R63), the named constants (R62), the
codecs of the address and timestamp segments (00_scope.md R7, R8), and byte access to a buffer and a frame (R11). -/

namespace Sys2Proof.Machine

/-! ## Named constants (R62) -/

/-- SCO state OFF and ON. -/
def scoOff : Bool := false
def scoOn : Bool := true
/-- DCQ state of DC and DCT: OFF = 1, ON = 2. -/
def dcqOff : Nat := 1
def dcqOn : Nat := 2
/-- Step state of STEP: LOWER = 1, HIGHER = 2. -/
def stepLower : Nat := 1
def stepHigher : Nat := 2
/-- S/E: select = true, execute = false. -/
def seSelect : Bool := true
def seExecute : Bool := false
/-- QU 0: no additional definition. -/
def quNone : Nat := 0

/-- What a two-bit state is called (R62, R106): the same values have other names for a step command. -/
inductive StateName where
  | off | on | lower | higher | reserved
  deriving DecidableEq, Repr

/-- The name of a DCQ or step state under a kind; 0 and 3 are reserved (R62, R66(a)). SC and SCT have no two-bit
state. -/
def stateName : Kind → Nat → Option StateName
  | .sc, _ => none
  | .sct, _ => none
  | .dc, 1 => some .off
  | .dc, 2 => some .on
  | .dct, 1 => some .off
  | .dct, 2 => some .on
  | .step, 1 => some .lower
  | .step, 2 => some .higher
  | _, _ => some .reserved

/-! ## Qualifier fields (R60, R61, R63) -/

/-- `b[0] = 1`: the SCO state bit. -/
def scoState (b : Byte) : Bool := b.getLsbD 0

/-- `b[1:0]`: the DCQ and step state. -/
def dcqState (b : Byte) : Nat := (b.extractLsb' 0 2).toNat

/-- `b[6:2]`: QU, the same bits in both layouts. -/
def quField (b : Byte) : Nat := (b.extractLsb' 2 5).toNat

/-- `b[7] = 1`: the select bit, the same bit in both layouts. -/
def selField (b : Byte) : Bool := b.getLsbD 7

/-- `(qu mod 32) << 2`, with the Euclidean remainder of R10. -/
def quBits (qu : Int) : Byte := BitVec.ofNat 8 (qu % 32).toNat <<< 2

/-- PACK_SCO's byte (R100). -/
def packSco (cmd sel : Bool) (qu : Int) : Byte :=
  let b := quBits qu
  let b := if cmd then b ||| 0x01 else b
  if sel then b ||| 0x80 else b

/-- PACK_DCQ's byte (R102). -/
def packDcq (cmd : Int) (sel : Bool) (qu : Int) : Byte :=
  let b := BitVec.ofNat 8 (cmd % 4).toNat + quBits qu
  if sel then b ||| 0x80 else b

/-! ## The address segment (R7, R45(b), R47) -/

/-- `ioaEncode ioa A`: exactly `A` bytes. The default is `[ (ioa >> 8*k) mod 256 for k = 0 .. A-1 ]` (R7). -/
def ioaEncode (C : IoaCodec) (ioa A : Nat) : Bytes :=
  match C with
  | .lsbFirst => (List.range A).map fun k => BitVec.ofNat 8 (ioa >>> (8 * k))
  | .collaborator => (List.range A).map fun k => Config.ioaWireByte ioa A k

/-- The default read-back `sum b_k * 256^k` (R7). -/
def lsbValue : Bytes → Nat
  | [] => 0
  | b :: rest => b.toNat + 256 * lsbValue rest

/-- `ioaDecode`: reads exactly the bytes it is given (R7). -/
def ioaDecode (C : IoaCodec) (xs : Bytes) : Nat :=
  match C with
  | .lsbFirst => lsbValue xs
  | .collaborator => Config.ioaReadBack xs

/-! ## The timestamp segment (R8, R27, R45(c)) -/

/-- The seven wire bytes of a timestamp value, in the order they are written. Under the identity they are the value's own
bytes in index order (R8, R150). -/
def tsEncode (T : TsCodec) (t : Timestamp) : Bytes :=
  match T with
  | .identity => t.bytes
  | .collaborator => (Config.tsWire t).bytes

/-- The timestamp value of seven wire bytes `w`, in the order they are read (R8, R151). Any seven bytes are accepted
(93 I7). -/
def tsDecode (T : TsCodec) (w : Timestamp) : Timestamp :=
  match T with
  | .identity => w
  | .collaborator => Config.tsWire.symm w

/-! ## Buffer and frame (R11, R40, R42) -/

/-- `BufRead(buf, i)`. No rule calls it with `i >= len(buf)` (R11); what it would give there is left free (log 11). -/
def bufRead (buf : Bytes) (i : Nat) : Byte := buf.getD i (Config.beyondBuffer i)

/-- The `n` bytes `[BufRead(buf, i + k) for k = 0 .. n-1]`. -/
def bufSlice (buf : Bytes) (i n : Nat) : Bytes := (List.range n).map fun k => bufRead buf (i + k)

/-- `FrameAppend(f, xs)` (R11): the frame is growable, so appending never fails (R42). -/
def frameAppend (f xs : Bytes) : Bytes := f ++ xs

end Sys2Proof.Machine
end

