-- ==== Sys2Proof/Machine/Ops.lean ====
section
/-! DEFINITION. The operations the meanings share: ending a request with a value or with a fault, the host variables,
and the pure contracts EncodeK (R120), DecodeK (R130), APPEND_TS (R150) and READ_TS (R151). -/

namespace Sys2Proof.Machine

/-! ## Updates of the state -/

/-- The result output takes a value; every other field stays. -/
def State.setResult (r : Result) (s : State) : State := { s with result := some r }

/-- The host's sequence of requests takes a value; every other field stays. -/
def State.setPending (rs : List Request) (s : State) : State := { s with pending := rs }

/-- The host variables take a value; every other field stays. -/
def State.setVars (vs : HostVars) (s : State) : State := { s with vars := vs }

/-! ## Ending a request (R22, R169) -/

/-- `ok(v)`: the request ends with status `OK` and the output `v` (R11, R22). -/
def State.answer (v : Value) (s : State) : Out := .next (s.setResult (.ok v))

/-- `raise c`: fault entry (R169). Nothing is saved, no mode or mask changes and no vector is taken, for the block has
none; the request ends with `fault(c)` in place of a value, and nothing else happens. There is no return from it
(R170): the next request simply runs. -/
def State.raise (c : Cause) (s : State) : Out := .next (s.setResult (.fault c))

/-- End a request with what its pseudocode came to: a value, wrapped as its rule's output type, or a fault. -/
def deliver {α : Type} (out : α → Value) (x : Except Cause α) (s : State) : Out :=
  match x with
  | .ok a => s.answer (out a)
  | .error c => s.raise c

/-! ## The host variables (R23, R73) -/

/-- The value of a host variable, `none` while it is unwritten. -/
def HostVars.get (vs : HostVars) (n : Nat) : Option Value :=
  match vs with
  | [] => none
  | (k, v) :: rest => if n = k then some v else HostVars.get rest n

/-- Write a host variable, keeping the numbers strictly rising. -/
def HostVars.set (vs : HostVars) (n : Nat) (v : Value) : HostVars :=
  match vs with
  | [] => [(n, v)]
  | (k, w) :: rest =>
    if n < k then (n, v) :: (k, w) :: rest
    else if n = k then (n, v) :: rest
    else (k, w) :: HostVars.set rest n v

/-- The canonical form: variable numbers strictly rising. -/
abbrev HostVars.wf (vs : HostVars) : Prop := vs.Pairwise fun a b => a.1 < b.1

/-- The host keeps an `ok` value in `<dst>`; "A request that faults leaves `<dst>` unwritten" (R73). -/
def State.bindResult (dst : Nat) (s : State) : State :=
  match s.result with
  | some (.ok v) => s.setVars (HostVars.set s.vars dst v)
  | _ => s

/-- The request in hand has ended: bind its result to `<dst>`. -/
def complete (dst : Nat) (x : Out) : Out :=
  match x with
  | .next s => .next (s.bindResult dst)
  | .fault r => .fault r
  | .refused r => .refused r

/-- Perform one issued request: decode it, run it with `run`, and bind its result (R57, R73). A reserved `OPC` ends with
`ILLEGAL_REQUEST` and reads no operand (R71, R165). -/
def perform (run : Instr → State → Out) (r : Request) (s : State) : Out :=
  match decode r.opc r.args with
  | .ok i => complete r.dst (run i s)
  | .error (.reserved opc) => complete r.dst (s.raise (.illegalRequest opc))
  | .error (.operandShape _) => .refused .illTypedOperands
  | .error (.illFormedObject _) => .refused .illTypedOperands

/-! ## Shared contracts -/

/-- `A in {1, 2, 3}` (R21, R166). -/
abbrev legalWidth (A : Nat) : Prop := A = 1 ∨ A = 2 ∨ A = 3

/-- `L(k, A)`, the wire length (20_memory.md R48). -/
def wireLen (k : Kind) (A : Nat) : Nat :=
  A + Config.qualWidth + if k.hasTs then Config.tsWidth else 0

/-- APPEND_TS (R150): the seven wire bytes of the value; under the identity codec its own bytes in index order. -/
def appendTs (T : TsCodec) (f : Bytes) (ts : Timestamp) : Bytes := frameAppend f (tsEncode T ts)

/-- READ_TS (R151). The bounds check comes before any byte is read (R164). -/
def readTs (T : TsCodec) (buf : Bytes) (pos : Nat) : Except Cause Timestamp :=
  if buf.length < pos + Config.tsWidth then
    .error (.malformedInput pos Config.tsWidth buf.length)
  else
    .ok (tsDecode T ⟨bufRead buf pos, bufRead buf (pos + 1), bufRead buf (pos + 2), bufRead buf (pos + 3),
      bufRead buf (pos + 4), bufRead buf (pos + 5), bufRead buf (pos + 6)⟩)

/-- `EncodeK(k, cfg, f, o)` (R120): the checks in the order of R168, then the segments IOA, qualifier, timestamp. The
stored `q` is written as it is. A kind with a timestamp whose object has none is no object of R29, and `step` never
runs one; on it this answers `OPERAND_MISMATCH`, as R167 does for an object with no timestamp (log 6). -/
def encodeK (C : IoaCodec) (T : TsCodec) (k : Kind) (cfg : Cfg) (f : Bytes) (o : Cmd) : Except Cause Bytes :=
  if ¬ legalWidth cfg.ioaWidth then .error (.badConfig cfg.ioaWidth)
  else if o.kind ≠ k then .error (.operandMismatch o.kind)
  else
    let f1 := frameAppend f (ioaEncode C o.ioa cfg.ioaWidth)
    let f2 := frameAppend f1 [o.q]
    if k.hasTs then
      match o.ts with
      | some t => .ok (appendTs T f2 t)
      | none => .error (.operandMismatch o.kind)
    else .ok f2

/-- `DecodeK(k, cfg, buf, off)` (R130): the object and `next`. The whole length is checked before any byte is read. -/
def decodeK (C : IoaCodec) (T : TsCodec) (k : Kind) (cfg : Cfg) (buf : Bytes) (off : Nat) : Except Cause (Cmd × Nat) :=
  let A := cfg.ioaWidth
  if ¬ legalWidth A then .error (.badConfig A)
  else if buf.length < off + wireLen k A then .error (.malformedInput off (wireLen k A) buf.length)
  else
    let ioa := ioaDecode C (bufSlice buf off A)
    let q := bufRead buf (off + A)
    if k.hasTs then
      match readTs T buf (off + A + 1) with
      | .ok t => .ok (⟨k, ioa, q, some t⟩, off + wireLen k A)
      | .error c => .error c
    else .ok (⟨k, ioa, q, none⟩, off + wireLen k A)

end Sys2Proof.Machine
end

