-- ==== Sys2Proof/Machine/Accessors.lean ====
section
/-! DEFINITION. The accessors (41_command_variants.md section 4): projections of one command object (R145). -/

namespace Sys2Proof.Machine

/-- GET_IOA (R140). -/
def execGetIoa (o : Cmd) (s : State) : Out := s.answer (.nat o.ioa)

/-- GET_STATE (R141): a Boolean for an SCO kind, 0..3 for a DCQ kind. -/
def execGetState (o : Cmd) (s : State) : Out :=
  match o.kind.qk with
  | .sco => s.answer (.bool (scoState o.q))
  | .dcq => s.answer (.nat (dcqState o.q))

/-- GET_SELECT (R142). -/
def execGetSelect (o : Cmd) (s : State) : Out := s.answer (.bool (selField o.q))

/-- GET_QU (R143). -/
def execGetQu (o : Cmd) (s : State) : Out := s.answer (.nat (quField o.q))

/-- GET_TS (R144): `OPERAND_MISMATCH` for a kind without a timestamp (R75(b)), and for an object with none (R167). -/
def execGetTs (o : Cmd) (s : State) : Out :=
  if o.kind.hasTs then
    match o.ts with
    | some t => s.answer (.timestamp t)
    | none => s.raise (.operandMismatch o.kind)
  else s.raise (.operandMismatch o.kind)

end Sys2Proof.Machine
end

