-- ==== Sys2Proof/Machine/Build.lean ====
section
/-! DEFINITION. BUILD (41_command_variants.md section 1). It reads no CFG, checks nothing and never faults (R115). -/

namespace Sys2Proof.Machine

/-- BUILD.SC (R110). -/
def execBuildSc (ioa : Nat) (cmd sel : Bool) (qu : Int) (s : State) : Out :=
  s.answer (.cmd ⟨.sc, ioa, packSco cmd sel qu, none⟩)

/-- BUILD.SCT (R111). -/
def execBuildSct (ioa : Nat) (cmd sel : Bool) (qu : Int) (ts : Timestamp) (s : State) : Out :=
  s.answer (.cmd ⟨.sct, ioa, packSco cmd sel qu, some ts⟩)

/-- BUILD.DC (R112). -/
def execBuildDc (ioa : Nat) (cmd : Int) (sel : Bool) (qu : Int) (s : State) : Out :=
  s.answer (.cmd ⟨.dc, ioa, packDcq cmd sel qu, none⟩)

/-- BUILD.DCT (R113). -/
def execBuildDct (ioa : Nat) (cmd : Int) (sel : Bool) (qu : Int) (ts : Timestamp) (s : State) : Out :=
  s.answer (.cmd ⟨.dct, ioa, packDcq cmd sel qu, some ts⟩)

/-- BUILD.STEP (R114). -/
def execBuildStep (ioa : Nat) (cmd : Int) (sel : Bool) (qu : Int) (s : State) : Out :=
  s.answer (.cmd ⟨.step, ioa, packDcq cmd sel qu, none⟩)

end Sys2Proof.Machine
end

