-- ==== Sys2Proof/Machine/DecodeCmd.lean ====
section
/-! DEFINITION. DECODE (41_command_variants.md section 3): `DecodeK` of R130 for each kind. -/

namespace Sys2Proof.Machine

/-- The output pair `{ obj, next }` of R130 as a value. -/
def decodedValue (r : Cmd × Nat) : Value := .decoded r.1 r.2

/-- DECODE.SC (R131). -/
def execDecodeSc (cfg : Cfg) (buf : Bytes) (off : Nat) (s : State) : Out :=
  deliver decodedValue (decodeK s.ioaCodec s.tsCodec .sc cfg buf off) s

/-- DECODE.SCT (R132). -/
def execDecodeSct (cfg : Cfg) (buf : Bytes) (off : Nat) (s : State) : Out :=
  deliver decodedValue (decodeK s.ioaCodec s.tsCodec .sct cfg buf off) s

/-- DECODE.DC (R133). -/
def execDecodeDc (cfg : Cfg) (buf : Bytes) (off : Nat) (s : State) : Out :=
  deliver decodedValue (decodeK s.ioaCodec s.tsCodec .dc cfg buf off) s

/-- DECODE.DCT (R134). -/
def execDecodeDct (cfg : Cfg) (buf : Bytes) (off : Nat) (s : State) : Out :=
  deliver decodedValue (decodeK s.ioaCodec s.tsCodec .dct cfg buf off) s

/-- DECODE.STEP (R135). -/
def execDecodeStep (cfg : Cfg) (buf : Bytes) (off : Nat) (s : State) : Out :=
  deliver decodedValue (decodeK s.ioaCodec s.tsCodec .step cfg buf off) s

end Sys2Proof.Machine
end

