-- ==== Sys2Proof/Machine/Encode.lean ====
section
/-! DEFINITION. ENCODE (41_command_variants.md section 2): `EncodeK` of R120 for each kind. -/

namespace Sys2Proof.Machine

/-- ENCODE.SC (R121). -/
def execEncodeSc (cfg : Cfg) (f : Bytes) (o : Cmd) (s : State) : Out :=
  deliver .frame (encodeK s.ioaCodec s.tsCodec .sc cfg f o) s

/-- ENCODE.SCT (R122). -/
def execEncodeSct (cfg : Cfg) (f : Bytes) (o : Cmd) (s : State) : Out :=
  deliver .frame (encodeK s.ioaCodec s.tsCodec .sct cfg f o) s

/-- ENCODE.DC (R123). -/
def execEncodeDc (cfg : Cfg) (f : Bytes) (o : Cmd) (s : State) : Out :=
  deliver .frame (encodeK s.ioaCodec s.tsCodec .dc cfg f o) s

/-- ENCODE.DCT (R124). -/
def execEncodeDct (cfg : Cfg) (f : Bytes) (o : Cmd) (s : State) : Out :=
  deliver .frame (encodeK s.ioaCodec s.tsCodec .dct cfg f o) s

/-- ENCODE.STEP (R125). -/
def execEncodeStep (cfg : Cfg) (f : Bytes) (o : Cmd) (s : State) : Out :=
  deliver .frame (encodeK s.ioaCodec s.tsCodec .step cfg f o) s

end Sys2Proof.Machine
end

