-- ==== Sys2Proof/Machine/Qualifier.lean ====
section
/-! DEFINITION. Qualifier codec family (40_qualifier_codec.md). No request of it faults (R107). -/

namespace Sys2Proof.Machine

/-- PACK_SCO (R100). -/
def execPackSco (cmd sel : Bool) (qu : Int) (s : State) : Out := s.answer (.byte (packSco cmd sel qu))

/-- UNPACK_SCO (R101). Bit 1 is read by no output. -/
def execUnpackSco (b : Byte) (s : State) : Out := s.answer (.scoFields (scoState b) (quField b) (selField b))

/-- PACK_DCQ (R102). -/
def execPackDcq (cmd : Int) (sel : Bool) (qu : Int) (s : State) : Out := s.answer (.byte (packDcq cmd sel qu))

/-- UNPACK_DCQ (R103). -/
def execUnpackDcq (b : Byte) (s : State) : Out := s.answer (.dcqFields (dcqState b) (quField b) (selField b))

end Sys2Proof.Machine
end

