-- ==== Sys2Proof/Machine/TimestampField.lean ====
section
/-! DEFINITION. The timestamp field family (42_timestamp.md): seven opaque bytes, copied (R153). -/

namespace Sys2Proof.Machine

/-- APPEND_TS (R150). It never faults (R52). -/
def execAppendTs (f : Bytes) (ts : Timestamp) (s : State) : Out := s.answer (.frame (appendTs s.tsCodec f ts))

/-- READ_TS (R151). -/
def execReadTs (buf : Bytes) (pos : Nat) (s : State) : Out := deliver .timestamp (readTs s.tsCodec buf pos) s

end Sys2Proof.Machine
end

