-- ==== Sys2Proof/Machine/Dispatch.lean ====
section
/-! DEFINITION. One arm per request of the opcode map (30_encoding.md R70). -/

namespace Sys2Proof.Machine

def exec (i : Instr) (s : State) : Host.Outcome State Fault Refusal :=
  match i with
  | .packSco cmd sel qu => Sys2Proof.Machine.execPackSco cmd sel qu s
  | .unpackSco b => Sys2Proof.Machine.execUnpackSco b s
  | .packDcq cmd sel qu => Sys2Proof.Machine.execPackDcq cmd sel qu s
  | .unpackDcq b => Sys2Proof.Machine.execUnpackDcq b s
  | .buildSc ioa cmd sel qu => Sys2Proof.Machine.execBuildSc ioa cmd sel qu s
  | .buildSct ioa cmd sel qu ts => Sys2Proof.Machine.execBuildSct ioa cmd sel qu ts s
  | .buildDc ioa cmd sel qu => Sys2Proof.Machine.execBuildDc ioa cmd sel qu s
  | .buildDct ioa cmd sel qu ts => Sys2Proof.Machine.execBuildDct ioa cmd sel qu ts s
  | .buildStep ioa cmd sel qu => Sys2Proof.Machine.execBuildStep ioa cmd sel qu s
  | .encodeSc cfg f o => Sys2Proof.Machine.execEncodeSc cfg f o s
  | .encodeSct cfg f o => Sys2Proof.Machine.execEncodeSct cfg f o s
  | .encodeDc cfg f o => Sys2Proof.Machine.execEncodeDc cfg f o s
  | .encodeDct cfg f o => Sys2Proof.Machine.execEncodeDct cfg f o s
  | .encodeStep cfg f o => Sys2Proof.Machine.execEncodeStep cfg f o s
  | .decodeSc cfg buf off => Sys2Proof.Machine.execDecodeSc cfg buf off s
  | .decodeSct cfg buf off => Sys2Proof.Machine.execDecodeSct cfg buf off s
  | .decodeDc cfg buf off => Sys2Proof.Machine.execDecodeDc cfg buf off s
  | .decodeDct cfg buf off => Sys2Proof.Machine.execDecodeDct cfg buf off s
  | .decodeStep cfg buf off => Sys2Proof.Machine.execDecodeStep cfg buf off s
  | .getIoa o => Sys2Proof.Machine.execGetIoa o s
  | .getState o => Sys2Proof.Machine.execGetState o s
  | .getSelect o => Sys2Proof.Machine.execGetSelect o s
  | .getQu o => Sys2Proof.Machine.execGetQu o s
  | .getTs o => Sys2Proof.Machine.execGetTs o s
  | .appendTs f ts => Sys2Proof.Machine.execAppendTs f ts s
  | .readTs buf pos => Sys2Proof.Machine.execReadTs buf pos s

end Sys2Proof.Machine
end

