-- ==== Sys2Proof/Machine/Step.lean ====
section
/-! DEFINITION. One step: the block performs the next request the host has issued (20_memory.md R57). -/

namespace Sys2Proof.Machine

/-- Take the next request off the host's sequence and perform it. Each request is one indivisible step (R52). With
nothing issued there is nothing to perform (R188; log 1). -/
def step (s : State) : Host.Outcome State Fault Refusal :=
  match s.pending with
  | [] => .refused .noRequest
  | r :: rest => perform exec r (s.setPending rest)

/-- The host issues one more request, to be performed next: the instruction word `w` (one byte, R72) with operands of
zeros, bound to host variable 0 (log 10). -/
def State.withFetchWord (s : State) (nbits w : Nat) : State :=
  let opc : Byte := BitVec.ofNat 8 (w % 2 ^ nbits)
  s.setPending (⟨0, opc, zeroOperands opc⟩ :: s.pending)

end Sys2Proof.Machine
end

