-- ==== Sys2Proof/Safety.lean ====
section
/-! DEFINITION. What claims call a well-typed run: the requests have the types of 30_encoding.md R67 and the values the
host holds are values a request can return (10_state.md R22, R29). -/

namespace Sys2Proof.Machine

/-- A request the spec gives a result: one that decodes, or one with a reserved `OPC` (R71, R160). What is left out is a
bundle that has not the types its opcode fixes (R67). -/
def Request.wellTyped (r : Request) : Bool :=
  match decode r.opc r.args with
  | .ok _ => true
  | .error (.reserved _) => true
  | .error (.operandShape _) => false
  | .error (.illFormedObject _) => false

/-- A value of a type some request's rule gives: field values in their ranges (R101, R103), objects of R29. -/
def Value.wf : Value → Bool
  | .byte _ => true
  | .scoFields _ qu _ => decide (qu < 32)
  | .dcqFields state qu _ => decide (state < 4) && decide (qu < 32)
  | .cmd o => o.wf
  | .frame _ => true
  | .decoded obj _ => obj.wf
  | .bool _ => true
  | .nat _ => true
  | .timestamp _ => true

/-- A result whose value, if it has one, is well formed. -/
def Result.wf : Result → Bool
  | .ok v => v.wf
  | .fault _ => true

/-- The invariant of a run: the host variables are in canonical form, and every request, variable and result is well
typed. -/
structure Inv (s : State) : Prop where
  /-- Each pending request is well typed. -/
  pending : ∀ r ∈ s.pending, r.wellTyped = true
  /-- The host variables have strictly rising numbers. -/
  canonical : HostVars.wf s.vars
  /-- Each host variable holds a well-formed value; for an object, R29. -/
  vars : ∀ p ∈ s.vars, p.2.wf = true
  /-- The last result is well formed. -/
  result : ∀ r, s.result = some r → r.wf = true

/-- The fault table by request (60_exceptions.md R162): the faults a request with a defined `OPC` can end with. -/
def Instr.mayFault : Instr → Cause → Bool
  | .encodeSc _ _ _, .badConfig _ => true
  | .encodeSct _ _ _, .badConfig _ => true
  | .encodeDc _ _ _, .badConfig _ => true
  | .encodeDct _ _ _, .badConfig _ => true
  | .encodeStep _ _ _, .badConfig _ => true
  | .encodeSc _ _ _, .operandMismatch _ => true
  | .encodeSct _ _ _, .operandMismatch _ => true
  | .encodeDc _ _ _, .operandMismatch _ => true
  | .encodeDct _ _ _, .operandMismatch _ => true
  | .encodeStep _ _ _, .operandMismatch _ => true
  | .decodeSc _ _ _, .badConfig _ => true
  | .decodeSct _ _ _, .badConfig _ => true
  | .decodeDc _ _ _, .badConfig _ => true
  | .decodeDct _ _ _, .badConfig _ => true
  | .decodeStep _ _ _, .badConfig _ => true
  | .decodeSc _ _ _, .malformedInput _ _ _ => true
  | .decodeSct _ _ _, .malformedInput _ _ _ => true
  | .decodeDc _ _ _, .malformedInput _ _ _ => true
  | .decodeDct _ _ _, .malformedInput _ _ _ => true
  | .decodeStep _ _ _, .malformedInput _ _ _ => true
  | .getTs _, .operandMismatch _ => true
  | .readTs _ _, .malformedInput _ _ _ => true
  | _, _ => false

end Sys2Proof.Machine
end

