-- ==== Sys2Proof/Certificates/Slice0/Obligations.lean ====
section
/-! DEFINITION. The statements for the provers. A conclusion `exec i s = .next { s with result := some r }` says that the
instruction completes AND gives its frame: the pending requests, every host variable and the two codecs are unchanged,
and only the result output takes the value `r`. -/

open Sys2Proof Sys2Proof.Machine

/-! ## Qualifier codec (40_qualifier_codec.md) -/

/-- R100. PACK_SCO answers the byte with the state in bit 0, `qu mod 32` in bits 6..2 and select in bit 7; bit 1 is
always 0. Any integer `qu` is accepted. -/
def Obligations.PackScoByteValue : Prop :=
  ∀ (cmd sel : Bool) (qu : Int) (s : State), ∃ b : Byte,
    exec (.packSco cmd sel qu) s = .next { s with result := some (.ok (.byte b)) } ∧
    (b.toNat : Int) = (if cmd then 1 else 0) + 4 * (qu % 32) + (if sel then 128 else 0) ∧
    b.getLsbD 1 = false

/-- R101. UNPACK_SCO answers (state, QU, select) from bits 0, 6..2 and 7; bit 1 is read by no output. -/
def Obligations.UnpackScoFieldValues : Prop :=
  ∀ (b : Byte) (s : State),
    exec (.unpackSco b) s = .next { s with result := some (.ok (.scoFields (decide (b.toNat % 2 = 1))
      (b.toNat / 4 % 32) (decide (128 ≤ b.toNat)))) } ∧
    exec (.unpackSco b) s = exec (.unpackSco (b ^^^ 0x02)) s

/-- R102. PACK_DCQ answers the byte with `cmd mod 4` in bits 1..0, `qu mod 32` in bits 6..2 and select in bit 7. -/
def Obligations.PackDcqByteValue : Prop :=
  ∀ (cmd : Int) (sel : Bool) (qu : Int) (s : State), ∃ b : Byte,
    exec (.packDcq cmd sel qu) s = .next { s with result := some (.ok (.byte b)) } ∧
    (b.toNat : Int) = cmd % 4 + 4 * (qu % 32) + (if sel then 128 else 0)

/-- R103. UNPACK_DCQ answers (state, QU, select) from bits 1..0, 6..2 and 7; the reserved states are returned. -/
def Obligations.UnpackDcqFieldValues : Prop :=
  ∀ (b : Byte) (s : State),
    exec (.unpackDcq b) s = .next { s with result := some (.ok (.dcqFields (b.toNat % 4)
      (b.toNat / 4 % 32) (decide (128 ≤ b.toNat)))) }

/-- The laws of the SCO pair, which the spec marks as its own inference ([derived: from rule R100 and rule R101]):
(a) UNPACK_SCO after PACK_SCO, as two requests one after the other; (b) PACK_SCO of the unpacked fields is the byte less
bit 1; (c) the image is the bytes with bit 1 clear, and PACK_SCO is injective on the ranges; (d) masking; (e) each
operand changes its own bits only. -/
def Obligations.ScoPackUnpackLaws : Prop :=
  (∀ (c sel : Bool) (qu : Int) (s t : State) (b : Byte),
    exec (.packSco c sel qu) s = .next t → t.result = some (.ok (.byte b)) →
    exec (.unpackSco b) t = .next { t with result := some (.ok (.scoFields c (qu % 32).toNat sel)) }) ∧
  (∀ b : Byte, packSco (scoState b) (selField b) (quField b) = b &&& 0xFD ∧
    (packSco (scoState b) (selField b) (quField b) = b ↔ b.getLsbD 1 = false)) ∧
  (∀ b : Byte, b.getLsbD 1 = false ↔ ∃ (c sel : Bool) (qu : Int), 0 ≤ qu ∧ qu < 32 ∧ packSco c sel qu = b) ∧
  (∀ (c c' sel sel' : Bool) (qu qu' : Int), 0 ≤ qu → qu < 32 → 0 ≤ qu' → qu' < 32 →
    packSco c sel qu = packSco c' sel' qu' → c = c' ∧ sel = sel' ∧ qu = qu') ∧
  (∀ (c sel : Bool) (qu : Int), packSco c sel qu = packSco c sel (qu % 32)) ∧
  (∀ (c sel : Bool) (qu qu' : Int),
    packSco c true qu ^^^ packSco c false qu = 0x80 ∧
    packSco true sel qu ^^^ packSco false sel qu = 0x01 ∧
    (packSco c sel qu ^^^ packSco c sel qu') &&& 0x83 = 0)

/-- The laws of the DCQ pair, which the spec marks as its own inference ([derived: from rule R102 and rule R103]). Every
bit of the byte is a field bit, so the pair is a bijection. -/
def Obligations.DcqPackUnpackLaws : Prop :=
  (∀ (c : Int) (sel : Bool) (qu : Int) (s t : State) (b : Byte),
    exec (.packDcq c sel qu) s = .next t → t.result = some (.ok (.byte b)) →
    exec (.unpackDcq b) t = .next { t with result := some (.ok (.dcqFields (c % 4).toNat (qu % 32).toNat sel)) }) ∧
  (∀ b : Byte, packDcq (dcqState b) (selField b) (quField b) = b) ∧
  (∀ (c c' : Int) (sel sel' : Bool) (qu qu' : Int), 0 ≤ c → c < 4 → 0 ≤ c' → c' < 4 → 0 ≤ qu → qu < 32 → 0 ≤ qu' →
    qu' < 32 → packDcq c sel qu = packDcq c' sel' qu' → c = c' ∧ sel = sel' ∧ qu = qu') ∧
  (∀ (c : Int) (sel : Bool) (qu : Int), packDcq c sel qu = packDcq (c % 4) sel (qu % 32)) ∧
  (∀ (c c' : Int) (sel : Bool) (qu qu' : Int),
    packDcq c true qu ^^^ packDcq c false qu = 0x80 ∧
    (packDcq c sel qu ^^^ packDcq c' sel qu) &&& 0xFC = 0 ∧
    (packDcq c sel qu ^^^ packDcq c sel qu') &&& 0x83 = 0)

/-- The source's mask forms and the spec's bit-slice forms agree on every byte, and on integer operands of every machine
width of 5 bits or more; the two terms the DCQ pack adds share no bit, so their `+` is their `|`. The spec marks this as
its own inference ([derived: from rule R9 and rule R10], 92 D8). -/
def Obligations.QualifierMaskFormsAgree : Prop :=
  (∀ b : Byte, scoState b = decide (b &&& 0x01 = 0x01) ∧ dcqState b = (b &&& 0x03).toNat ∧
    quField b = (b &&& 0x7C).toNat / 4 ∧ selField b = decide (b &&& 0x80 = 0x80)) ∧
  (∀ (w : Nat) (qu : Int) (cmd sel : Bool), 5 ≤ w →
    packSco cmd sel qu =
      (BitVec.ofNat 8 ((BitVec.ofInt w qu &&& BitVec.ofNat w 0x1F).toNat * 4) ||| (if cmd then 0x01 else 0x00)) |||
        (if sel then 0x80 else 0x00)) ∧
  (∀ (w : Nat) (cmd qu : Int) (sel : Bool), 5 ≤ w →
    packDcq cmd sel qu =
      (BitVec.ofNat 8 (BitVec.ofInt w cmd &&& BitVec.ofNat w 0x03).toNat +
        BitVec.ofNat 8 ((BitVec.ofInt w qu &&& BitVec.ofNat w 0x1F).toNat * 4)) ||| (if sel then 0x80 else 0x00)) ∧
  (∀ (w : Nat) (cmd qu : Int), 5 ≤ w →
    let state : Byte := BitVec.ofNat 8 (BitVec.ofInt w cmd &&& BitVec.ofNat w 0x03).toNat
    let quality : Byte := BitVec.ofNat 8 ((BitVec.ofInt w qu &&& BitVec.ofNat w 0x1F).toNat * 4)
    state &&& quality = 0 ∧ state + quality = state ||| quality)

/-- R62. The named constants and their wire forms, made by the PACK requests. -/
def Obligations.NamedConstantsOnTheWire : Prop :=
  ∀ (s : State),
    exec (.packSco scoOff seExecute quNone) s = .next { s with result := some (.ok (.byte 0b00000000)) } ∧
    exec (.packSco scoOn seExecute quNone) s = .next { s with result := some (.ok (.byte 0b00000001)) } ∧
    exec (.packSco scoOff seSelect quNone) s = .next { s with result := some (.ok (.byte 0b10000000)) } ∧
    exec (.packDcq dcqOff seExecute quNone) s = .next { s with result := some (.ok (.byte 0b00000001)) } ∧
    exec (.packDcq dcqOn seExecute quNone) s = .next { s with result := some (.ok (.byte 0b00000010)) } ∧
    exec (.packDcq stepLower seSelect quNone) s = .next { s with result := some (.ok (.byte 0b10000001)) } ∧
    exec (.packDcq stepHigher seExecute quNone) s = .next { s with result := some (.ok (.byte 0b00000010)) } ∧
    exec (.packDcq 0 seExecute quNone) s = .next { s with result := some (.ok (.byte 0b00000000)) } ∧
    exec (.packDcq 3 seExecute quNone) s = .next { s with result := some (.ok (.byte 0b00000011)) } ∧
    (∀ k, k = Kind.dc ∨ k = Kind.dct → stateName k 1 = some .off ∧ stateName k 2 = some .on) ∧
    stateName .step 1 = some .lower ∧ stateName .step 2 = some .higher ∧
    (∀ k, k = Kind.dc ∨ k = Kind.dct ∨ k = Kind.step → stateName k 0 = some .reserved ∧ stateName k 3 = some .reserved)

/-! ## BUILD (41_command_variants.md section 1) -/

/-- R110, R111. BUILD.SC and BUILD.SCT answer the object that holds the address as given, PACK_SCO's byte and, for SCT,
the timestamp as given. -/
def Obligations.BuildScoObjects : Prop :=
  ∀ (ioa : Nat) (cmd sel : Bool) (qu : Int) (ts : Timestamp) (s : State), ∃ q : Byte,
    exec (.packSco cmd sel qu) s = .next { s with result := some (.ok (.byte q)) } ∧
    exec (.buildSc ioa cmd sel qu) s = .next { s with result := some (.ok (.cmd ⟨.sc, ioa, q, none⟩)) } ∧
    exec (.buildSct ioa cmd sel qu ts) s = .next { s with result := some (.ok (.cmd ⟨.sct, ioa, q, some ts⟩)) }

/-- R112, R113, R114. BUILD.DC, BUILD.DCT and BUILD.STEP answer the object that holds the address as given, PACK_DCQ's
byte and, for DCT, the timestamp as given. -/
def Obligations.BuildDcqObjects : Prop :=
  ∀ (ioa : Nat) (cmd : Int) (sel : Bool) (qu : Int) (ts : Timestamp) (s : State), ∃ q : Byte,
    exec (.packDcq cmd sel qu) s = .next { s with result := some (.ok (.byte q)) } ∧
    exec (.buildDc ioa cmd sel qu) s = .next { s with result := some (.ok (.cmd ⟨.dc, ioa, q, none⟩)) } ∧
    exec (.buildDct ioa cmd sel qu ts) s = .next { s with result := some (.ok (.cmd ⟨.dct, ioa, q, some ts⟩)) } ∧
    exec (.buildStep ioa cmd sel qu) s = .next { s with result := some (.ok (.cmd ⟨.step, ioa, q, none⟩)) }

/-- The accessors read back what BUILD was given, masked: state, select, QU, address and timestamp (S6, S7 of the test
vectors, through the stored byte). -/
def Obligations.AccessorsReadBackBuild : Prop :=
  (∀ (ioa : Nat) (cmd sel : Bool) (qu : Int) (ts : Timestamp) (s t : State) (o : Cmd),
    exec (.buildSc ioa cmd sel qu) s = .next t ∨ exec (.buildSct ioa cmd sel qu ts) s = .next t →
    t.result = some (.ok (.cmd o)) →
    exec (.getIoa o) t = .next { t with result := some (.ok (.nat ioa)) } ∧
    exec (.getState o) t = .next { t with result := some (.ok (.bool cmd)) } ∧
    exec (.getSelect o) t = .next { t with result := some (.ok (.bool sel)) } ∧
    exec (.getQu o) t = .next { t with result := some (.ok (.nat (qu % 32).toNat)) } ∧
    (o.kind = .sct → exec (.getTs o) t = .next { t with result := some (.ok (.timestamp ts)) })) ∧
  (∀ (ioa : Nat) (cmd : Int) (sel : Bool) (qu : Int) (ts : Timestamp) (s t : State) (o : Cmd),
    exec (.buildDc ioa cmd sel qu) s = .next t ∨ exec (.buildDct ioa cmd sel qu ts) s = .next t ∨
      exec (.buildStep ioa cmd sel qu) s = .next t →
    t.result = some (.ok (.cmd o)) →
    exec (.getIoa o) t = .next { t with result := some (.ok (.nat ioa)) } ∧
    exec (.getState o) t = .next { t with result := some (.ok (.nat (cmd % 4).toNat)) } ∧
    exec (.getSelect o) t = .next { t with result := some (.ok (.bool sel)) } ∧
    exec (.getQu o) t = .next { t with result := some (.ok (.nat (qu % 32).toNat)) } ∧
    (o.kind = .dct → exec (.getTs o) t = .next { t with result := some (.ok (.timestamp ts)) }))

/-! ## ENCODE (section 2) -/

/-- R121, R123, R125. ENCODE.SC, ENCODE.DC and ENCODE.STEP: with a legal width and an object of the request's kind the
frame gains the address segment (exactly `A` bytes; under the default codec the low `8*A` bits, least significant byte
first) and the stored qualifier byte; another kind is `OPERAND_MISMATCH`, another width `BAD_CONFIG`. -/
def Obligations.EncodeWithoutTimestamp : Prop :=
  ∀ (cfg : Cfg) (f : Bytes) (o : Cmd) (s : State) (A : Nat), cfg.ioaWidth = A →
    let seg := ioaEncode s.ioaCodec o.ioa A
    let ok : State := { s with result := some (.ok (.frame (f ++ seg ++ [o.q]))) }
    let mismatch : State := { s with result := some (.fault (.operandMismatch o.kind)) }
    let badConfig : State := { s with result := some (.fault (.badConfig A)) }
    (seg.length = A ∧
      (s.ioaCodec = .lsbFirst → ∀ k, k < A → seg[k]? = some (BitVec.ofNat 8 (o.ioa / 256 ^ k)))) ∧
    (1 ≤ A ∧ A ≤ 3 →
      (o.kind = .sc → exec (.encodeSc cfg f o) s = .next ok) ∧
      (o.kind ≠ .sc → exec (.encodeSc cfg f o) s = .next mismatch) ∧
      (o.kind = .dc → exec (.encodeDc cfg f o) s = .next ok) ∧
      (o.kind ≠ .dc → exec (.encodeDc cfg f o) s = .next mismatch) ∧
      (o.kind = .step → exec (.encodeStep cfg f o) s = .next ok) ∧
      (o.kind ≠ .step → exec (.encodeStep cfg f o) s = .next mismatch)) ∧
    (¬ (1 ≤ A ∧ A ≤ 3) →
      exec (.encodeSc cfg f o) s = .next badConfig ∧
      exec (.encodeDc cfg f o) s = .next badConfig ∧
      exec (.encodeStep cfg f o) s = .next badConfig)

/-- R122, R124. ENCODE.SCT and ENCODE.DCT: as the requests without a timestamp, followed by the seven timestamp bytes (in
index order under the identity `TS_CODEC`, the spec's instance); the frame grows by exactly `A + 8` bytes. -/
def Obligations.EncodeWithTimestamp : Prop :=
  ∀ (cfg : Cfg) (f : Bytes) (o : Cmd) (ts : Timestamp) (s : State) (A : Nat), cfg.ioaWidth = A →
    let seg := ioaEncode s.ioaCodec o.ioa A
    let tsSeg := tsEncode s.tsCodec ts
    let out := f ++ seg ++ [o.q] ++ tsSeg
    let ok : State := { s with result := some (.ok (.frame out)) }
    let mismatch : State := { s with result := some (.fault (.operandMismatch o.kind)) }
    let badConfig : State := { s with result := some (.fault (.badConfig A)) }
    (out.length = f.length + (A + 8) ∧ tsSeg.length = 7 ∧
      (s.tsCodec = .identity → tsSeg = [ts.b0, ts.b1, ts.b2, ts.b3, ts.b4, ts.b5, ts.b6]) ∧
      (s.ioaCodec = .lsbFirst → ∀ k, k < A → seg[k]? = some (BitVec.ofNat 8 (o.ioa / 256 ^ k)))) ∧
    (1 ≤ A ∧ A ≤ 3 →
      (o.kind = .sct ∧ o.ts = some ts → exec (.encodeSct cfg f o) s = .next ok) ∧
      (o.kind ≠ .sct → exec (.encodeSct cfg f o) s = .next mismatch) ∧
      (o.kind = .dct ∧ o.ts = some ts → exec (.encodeDct cfg f o) s = .next ok) ∧
      (o.kind ≠ .dct → exec (.encodeDct cfg f o) s = .next mismatch)) ∧
    (¬ (1 ≤ A ∧ A ≤ 3) →
      exec (.encodeSct cfg f o) s = .next badConfig ∧
      exec (.encodeDct cfg f o) s = .next badConfig)

/-- R50 (and R42). A successful ENCODE of kind `k` appends exactly `L(k, A)` bytes and a successful APPEND_TS exactly 7;
what the frame held stays in front. -/
def Obligations.WriteFootprintExact : Prop :=
  (∀ (k : Kind) (cfg : Cfg) (f f' : Bytes) (o : Cmd) (s t : State),
    exec (.encodeOf k cfg f o) s = .next t → t.result = some (.ok (.frame f')) →
    ∃ xs, f' = f ++ xs ∧ xs.length = cfg.ioaWidth + 1 + (if k = .sct ∨ k = .dct then 7 else 0)) ∧
  (∀ (f : Bytes) (ts : Timestamp) (s : State), ∃ xs, xs.length = 7 ∧
    exec (.appendTs f ts) s = .next { s with result := some (.ok (.frame (f ++ xs))) })

/-- An object with a timestamp encodes to the bytes of the object without it, followed by APPEND_TS (P6 of the test
vectors; the shared contract of ENCODE). -/
def Obligations.StampedEncodeIsPlainThenAppend : Prop :=
  ∀ (cfg : Cfg) (f w : Bytes) (ioa : Nat) (q : Byte) (ts : Timestamp) (s t : State),
    (exec (.encodeSc cfg f ⟨.sc, ioa, q, none⟩) s = .next t → t.result = some (.ok (.frame w)) →
      exec (.encodeSct cfg f ⟨.sct, ioa, q, some ts⟩) s = exec (.appendTs w ts) s) ∧
    (exec (.encodeDc cfg f ⟨.dc, ioa, q, none⟩) s = .next t → t.result = some (.ok (.frame w)) →
      exec (.encodeDct cfg f ⟨.dct, ioa, q, some ts⟩) s = exec (.appendTs w ts) s)

/-! ## DECODE (section 3) -/

/-- R131, R133, R135. DECODE.SC, DECODE.DC and DECODE.STEP: when `A + 1` bytes stand at `off`, the object with the
address read from the first `A` of them, the raw qualifier byte after them and no timestamp, and `next = off + A + 1`;
a shorter buffer is `MALFORMED_INPUT`, another width `BAD_CONFIG`. -/
def Obligations.DecodeWithoutTimestamp : Prop :=
  ∀ (cfg : Cfg) (buf : Bytes) (off : Nat) (s : State) (A : Nat), cfg.ioaWidth = A →
    let obj (k : Kind) (q : Byte) : State := { s with result := some (.ok (.decoded
      ⟨k, ioaDecode s.ioaCodec ((buf.drop off).take A), q, none⟩ (off + A + 1))) }
    let short : State := { s with result := some (.fault (.malformedInput off (A + 1) buf.length)) }
    let badConfig : State := { s with result := some (.fault (.badConfig A)) }
    (1 ≤ A ∧ A ≤ 3 →
      (off + A + 1 ≤ buf.length → ∃ q, buf[off + A]? = some q ∧
        exec (.decodeSc cfg buf off) s = .next (obj .sc q) ∧
        exec (.decodeDc cfg buf off) s = .next (obj .dc q) ∧
        exec (.decodeStep cfg buf off) s = .next (obj .step q)) ∧
      (buf.length < off + A + 1 →
        exec (.decodeSc cfg buf off) s = .next short ∧
        exec (.decodeDc cfg buf off) s = .next short ∧
        exec (.decodeStep cfg buf off) s = .next short)) ∧
    (¬ (1 ≤ A ∧ A ≤ 3) →
      exec (.decodeSc cfg buf off) s = .next badConfig ∧
      exec (.decodeDc cfg buf off) s = .next badConfig ∧
      exec (.decodeStep cfg buf off) s = .next badConfig)

/-- R132, R134. DECODE.SCT and DECODE.DCT: when `A + 8` bytes stand at `off`, the object with the address, the raw
qualifier byte and, as its timestamp, the value `TS_CODEC` reads from the seven bytes right after it (those seven bytes
themselves under the identity that the rules are written with, R8), and `next = off + A + 8`; a shorter buffer is
`MALFORMED_INPUT`, another width `BAD_CONFIG`. -/
def Obligations.DecodeWithTimestamp : Prop :=
  ∀ (cfg : Cfg) (buf : Bytes) (off : Nat) (s : State) (A : Nat), cfg.ioaWidth = A →
    let obj (k : Kind) (q : Byte) (t : Timestamp) : State := { s with result := some (.ok (.decoded
      ⟨k, ioaDecode s.ioaCodec ((buf.drop off).take A), q, some t⟩ (off + A + 8))) }
    let short : State := { s with result := some (.fault (.malformedInput off (A + 8) buf.length)) }
    let badConfig : State := { s with result := some (.fault (.badConfig A)) }
    (1 ≤ A ∧ A ≤ 3 →
      (off + A + 8 ≤ buf.length → ∃ (q : Byte) (w : Timestamp), buf[off + A]? = some q ∧
        (buf.drop (off + A + 1)).take 7 = [w.b0, w.b1, w.b2, w.b3, w.b4, w.b5, w.b6] ∧
        (s.tsCodec = .identity → tsDecode s.tsCodec w = w) ∧
        exec (.decodeSct cfg buf off) s = .next (obj .sct q (tsDecode s.tsCodec w)) ∧
        exec (.decodeDct cfg buf off) s = .next (obj .dct q (tsDecode s.tsCodec w))) ∧
      (buf.length < off + A + 8 →
        exec (.decodeSct cfg buf off) s = .next short ∧
        exec (.decodeDct cfg buf off) s = .next short)) ∧
    (¬ (1 ≤ A ∧ A ≤ 3) →
      exec (.decodeSct cfg buf off) s = .next badConfig ∧
      exec (.decodeDct cfg buf off) s = .next badConfig)

/-- R49. A successful DECODE depends on no byte outside `off .. off + L(k, A) - 1`, and a successful READ_TS on none
outside `pos .. pos + 6`: another buffer with the same bytes there gives the same outcome. -/
def Obligations.ReadFootprintOnly : Prop :=
  (∀ (k : Kind) (cfg : Cfg) (buf buf' : Bytes) (off : Nat) (s : State),
    let L := cfg.ioaWidth + 1 + (if k = .sct ∨ k = .dct then 7 else 0)
    off + L ≤ buf.length → (∀ i, off ≤ i → i < off + L → buf'[i]? = buf[i]?) →
    exec (.decodeOf k cfg buf' off) s = exec (.decodeOf k cfg buf off) s) ∧
  (∀ (buf buf' : Bytes) (pos : Nat) (s : State),
    pos + 7 ≤ buf.length → (∀ i, pos ≤ i → i < pos + 7 → buf'[i]? = buf[i]?) →
    exec (.readTs buf' pos) s = exec (.readTs buf pos) s)

/-- R106 (with R125 and R135 at its side). A STEP object packs with PACK_DCQ and reads its state as UNPACK_DCQ does, its
frame bytes are those of the DC object with the same address and qualifier, the same bytes decode under DECODE.DC and
DECODE.STEP to objects that differ in the kind alone, and only the names of the states differ. -/
def Obligations.StepSharesTheDoubleLayout : Prop :=
  (∀ (ioa : Nat) (cmd : Int) (sel : Bool) (qu : Int) (s : State), ∃ q : Byte,
    exec (.packDcq cmd sel qu) s = .next { s with result := some (.ok (.byte q)) } ∧
    exec (.buildStep ioa cmd sel qu) s = .next { s with result := some (.ok (.cmd ⟨.step, ioa, q, none⟩)) } ∧
    exec (.unpackDcq q) s = .next { s with result := some (.ok (.dcqFields (cmd % 4).toNat (qu % 32).toNat sel)) } ∧
    exec (.getState ⟨.step, ioa, q, none⟩) s = .next { s with result := some (.ok (.nat (cmd % 4).toNat)) }) ∧
  (∀ (cfg : Cfg) (f : Bytes) (ioa : Nat) (q : Byte) (s : State),
    exec (.encodeStep cfg f ⟨.step, ioa, q, none⟩) s = exec (.encodeDc cfg f ⟨.dc, ioa, q, none⟩) s) ∧
  (∀ (cfg : Cfg) (buf : Bytes) (off next : Nat) (o : Cmd) (s : State),
    exec (.decodeDc cfg buf off) s = .next { s with result := some (.ok (.decoded o next)) } →
    o.kind = .dc ∧
    exec (.decodeStep cfg buf off) s = .next { s with result := some (.ok (.decoded { o with kind := .step } next)) }) ∧
  stateName .dc 1 = some .off ∧ stateName .dc 2 = some .on ∧
  stateName .step 1 = some .lower ∧ stateName .step 2 = some .higher

/-- Decode then encode: what a successful DECODE read is what ENCODE of its object appends, for any `IOA_CODEC` whose
encoder undoes its decoder at this width; the spec's default codec does, at every width. The spec marks this law as its
own inference ([derived: from rule R120 and rule R130]), made with the identity `TS_CODEC`; that an SCT or DCT object's
timestamp bytes come back under every other `TS_CODEC` is the model's reading (log 13). -/
def Obligations.EncodeUndoesDecode : Prop :=
  (∀ (k : Kind) (cfg : Cfg) (buf f : Bytes) (off next : Nat) (obj : Cmd) (s t : State),
    (∀ x : Bytes, x.length = cfg.ioaWidth → ioaEncode s.ioaCodec (ioaDecode s.ioaCodec x) cfg.ioaWidth = x) →
    exec (.decodeOf k cfg buf off) s = .next t → t.result = some (.ok (.decoded obj next)) →
    exec (.encodeOf k cfg f obj) t =
      .next { t with result := some (.ok (.frame (f ++ (buf.drop off).take (next - off)))) }) ∧
  (∀ x : Bytes, ioaEncode .lsbFirst (ioaDecode .lsbFirst x) x.length = x)

/-- Encode then decode: decoding, at the place where a successful ENCODE appended, the frame it answered (whatever the
host appends after it) gives back the kind, the qualifier byte and the timestamp, the address as the codec reads back
what it wrote (the default: `ioa mod 256^A`), and `next` is the frame's length, `L(k, A)` after the place. The spec marks
this law as its own inference ([derived: from rule R120 and rule R130]), made with the identity `TS_CODEC`; that an SCT or
DCT object's timestamp comes back under every other `TS_CODEC` is the model's reading (log 13). -/
def Obligations.DecodeUndoesEncode : Prop :=
  ∀ (k : Kind) (cfg : Cfg) (f w g : Bytes) (o : Cmd) (s t : State),
    o.wf = true → exec (.encodeOf k cfg f o) s = .next t → t.result = some (.ok (.frame w)) →
    ∃ ioa,
      ioa = ioaDecode s.ioaCodec (ioaEncode s.ioaCodec o.ioa cfg.ioaWidth) ∧
      (s.ioaCodec = .lsbFirst → ioa = o.ioa % 256 ^ cfg.ioaWidth) ∧
      exec (.decodeOf k cfg (w ++ g) f.length) t =
        .next { t with result := some (.ok (.decoded ⟨k, ioa, o.q, o.ts⟩ w.length)) } ∧
      w.length = f.length + wireLen k cfg.ioaWidth

/-- The default `IOA_CODEC` (the model's reset value, log 3; the spec marks its byte order [from general knowledge, not
in source] and its truncation as its own choice): least significant byte first, read back modulo `256^A`, a bijection on
the `A`-byte segments; and a collaborator's segment has exactly `A` bytes too. -/
def Obligations.DefaultIoaCodecLaws : Prop :=
  (∀ (C : IoaCodec) (ioa A : Nat), (ioaEncode C ioa A).length = A) ∧
  (∀ ioa A k : Nat, k < A → (ioaEncode .lsbFirst ioa A)[k]? = some (BitVec.ofNat 8 (ioa / 256 ^ k))) ∧
  (∀ ioa A : Nat, ioaDecode .lsbFirst (ioaEncode .lsbFirst ioa A) = ioa % 256 ^ A) ∧
  (∀ x : Bytes, ioaDecode .lsbFirst x < 256 ^ x.length ∧
    ioaEncode .lsbFirst (ioaDecode .lsbFirst x) x.length = x)

/-- R48. The wire length of a kind. -/
def Obligations.WireLengthByKind : Prop :=
  ∀ (k : Kind) (A : Nat), wireLen k A = A + 1 + (if k.hasTs then 7 else 0)

/-! ## Accessors (section 4) -/

/-- R140, R142, R143. GET_IOA, GET_SELECT and GET_QU read the address, bit 7 and bits 6..2, the same for every kind. -/
def Obligations.AccessorFieldValues : Prop :=
  ∀ (o : Cmd) (s : State),
    exec (.getIoa o) s = .next { s with result := some (.ok (.nat o.ioa)) } ∧
    exec (.getSelect o) s = .next { s with result := some (.ok (.bool (decide (128 ≤ o.q.toNat)))) } ∧
    exec (.getQu o) s = .next { s with result := some (.ok (.nat (o.q.toNat / 4 % 32))) }

/-- R141. GET_STATE reads bit 0 as a Boolean for SC and SCT, and bits 1..0 as a number for DC, DCT and STEP: the states
that UNPACK_SCO and UNPACK_DCQ give. -/
def Obligations.GetStateByLayout : Prop :=
  ∀ (o : Cmd) (s : State),
    (o.kind = .sc ∨ o.kind = .sct →
      exec (.getState o) s = .next { s with result := some (.ok (.bool (decide (o.q.toNat % 2 = 1)))) } ∧
      ∃ qu sel, exec (.unpackSco o.q) s =
        .next { s with result := some (.ok (.scoFields (decide (o.q.toNat % 2 = 1)) qu sel)) }) ∧
    (o.kind = .dc ∨ o.kind = .dct ∨ o.kind = .step →
      exec (.getState o) s = .next { s with result := some (.ok (.nat (o.q.toNat % 4))) } ∧
      ∃ qu sel, exec (.unpackDcq o.q) s = .next { s with result := some (.ok (.dcqFields (o.q.toNat % 4) qu sel)) })

/-- R144. GET_TS answers the seven bytes as stored, and `OPERAND_MISMATCH` for an SC, DC or STEP object. -/
def Obligations.GetTsOrMismatch : Prop :=
  ∀ (o : Cmd) (t : Timestamp) (s : State),
    (o.kind = .sct ∨ o.kind = .dct → o.ts = some t →
      exec (.getTs o) s = .next { s with result := some (.ok (.timestamp t)) }) ∧
    (o.kind = .sc ∨ o.kind = .dc ∨ o.kind = .step →
      exec (.getTs o) s = .next { s with result := some (.fault (.operandMismatch o.kind)) })

/-! ## Timestamp field (42_timestamp.md) -/

/-- R150. APPEND_TS answers the frame followed by seven bytes, the timestamp's own in index order under the identity
`TS_CODEC` that the rule is written with (R8); it never faults. -/
def Obligations.AppendTsBytes : Prop :=
  ∀ (f : Bytes) (ts : Timestamp) (s : State), ∃ w : Bytes, w.length = 7 ∧
    exec (.appendTs f ts) s = .next { s with result := some (.ok (.frame (f ++ w))) } ∧
    w = tsEncode s.tsCodec ts ∧
    (s.tsCodec = .identity → w = [ts.b0, ts.b1, ts.b2, ts.b3, ts.b4, ts.b5, ts.b6])

/-- R151. READ_TS answers the value `TS_CODEC` reads from the seven bytes at `pos` (under the identity that the rule is
written with, R8, those bytes themselves), and `MALFORMED_INPUT(pos, 7, len)` when fewer than seven remain. -/
def Obligations.ReadTsBytes : Prop :=
  ∀ (buf : Bytes) (pos : Nat) (s : State),
    (pos + 7 ≤ buf.length → ∃ w : Timestamp,
      (buf.drop pos).take 7 = [w.b0, w.b1, w.b2, w.b3, w.b4, w.b5, w.b6] ∧
      (s.tsCodec = .identity → tsDecode s.tsCodec w = w) ∧
      exec (.readTs buf pos) s = .next { s with result := some (.ok (.timestamp (tsDecode s.tsCodec w))) }) ∧
    (buf.length < pos + 7 →
      exec (.readTs buf pos) s = .next { s with result := some (.fault (.malformedInput pos 7 buf.length)) })

/-- READ_TS after APPEND_TS gives the timestamp back, at the end of any frame and whatever follows it. The spec has this
under the identity `TS_CODEC` as its own inference ([derived: from rule R150 and rule R151]); that every codec preserves
the value is the model's reading (log 13). -/
def Obligations.ReadTsAfterAppendTs : Prop :=
  ∀ (f w g : Bytes) (ts : Timestamp) (s t : State),
    exec (.appendTs f ts) s = .next t → t.result = some (.ok (.frame w)) →
    exec (.readTs (w ++ g) f.length) t = .next { t with result := some (.ok (.timestamp ts)) }

/-- APPEND_TS after READ_TS appends exactly the seven bytes read, whatever `TS_CODEC` the host supplied: the block
composes and preserves the timestamp (R153's duties; that every codec does so is the model's reading, log 13). -/
def Obligations.AppendTsAfterReadTs : Prop :=
  ∀ (buf f : Bytes) (pos : Nat) (ts : Timestamp) (s t : State),
    exec (.readTs buf pos) s = .next t → t.result = some (.ok (.timestamp ts)) →
    exec (.appendTs f ts) t = .next { t with result := some (.ok (.frame (f ++ (buf.drop pos).take 7))) }

/-! ## Faults (60_exceptions.md) -/

/-- R160. The numeric codes, and the `STATUS` a result gives: 0 exactly for `ok`; every request ends with one. -/
def Obligations.StatusCodeNumbers : Prop :=
  (∀ (st n len : Nat), (Cause.malformedInput st n len).code = 1) ∧
  (∀ opc : Byte, (Cause.illegalRequest opc).code = 2) ∧
  (∀ w : Nat, (Cause.badConfig w).code = 3) ∧
  (∀ k : Kind, (Cause.operandMismatch k).code = 4) ∧
  (∀ (r : Result), r.status ≤ 4 ∧ (r.status = 0 ↔ ∃ v, r = .ok v) ∧ (∀ c, r = .fault c → r.status = c.code)) ∧
  (∀ (s : State) (r : Result), State.status { s with result := some r } = some r.status) ∧
  (∀ (i : Instr) (s : State), ∃ (t : State) (n : Nat), exec i s = .next t ∧ t.status = some n ∧ n ≤ 4)

/-- R164. A DECODE of kind `k` with a legal width faults when `off + L(k, A) > len(buf)`, and a READ_TS when
`pos + 7 > len(buf)`, whatever bytes the buffer has: the only change is the fault result, with its info. -/
def Obligations.ShortBufferIsMalformed : Prop :=
  (∀ (k : Kind) (cfg : Cfg) (buf : Bytes) (off : Nat) (s : State),
    let L := cfg.ioaWidth + 1 + (if k = .sct ∨ k = .dct then 7 else 0)
    1 ≤ cfg.ioaWidth → cfg.ioaWidth ≤ 3 → buf.length < off + L →
    exec (.decodeOf k cfg buf off) s =
      .next { s with result := some (.fault (.malformedInput off L buf.length)) }) ∧
  (∀ (buf : Bytes) (pos : Nat) (s : State), buf.length < pos + 7 →
    exec (.readTs buf pos) s = .next { s with result := some (.fault (.malformedInput pos 7 buf.length)) })

/-- R166. An ENCODE or DECODE of any kind whose width is not 1, 2 or 3 faults with `BAD_CONFIG`, whatever its frame,
object, buffer and offset. -/
def Obligations.IllegalWidthIsBadConfig : Prop :=
  ∀ (k : Kind) (cfg : Cfg) (f buf : Bytes) (o : Cmd) (off : Nat) (s : State),
    cfg.ioaWidth ≠ 1 → cfg.ioaWidth ≠ 2 → cfg.ioaWidth ≠ 3 →
    exec (.encodeOf k cfg f o) s = .next { s with result := some (.fault (.badConfig cfg.ioaWidth)) } ∧
    exec (.decodeOf k cfg buf off) s = .next { s with result := some (.fault (.badConfig cfg.ioaWidth)) }

/-- R167, R75. An ENCODE.k (with a legal width, R168) whose object has another kind, and a GET_TS whose object's kind has
no timestamp or whose object has none, fault with `OPERAND_MISMATCH`, and nothing is written. -/
def Obligations.WrongObjectIsMismatch : Prop :=
  (∀ (k : Kind) (cfg : Cfg) (f : Bytes) (o : Cmd) (s : State),
    1 ≤ cfg.ioaWidth → cfg.ioaWidth ≤ 3 → o.kind ≠ k →
    exec (.encodeOf k cfg f o) s = .next { s with result := some (.fault (.operandMismatch o.kind)) }) ∧
  (∀ (o : Cmd) (s : State), o.kind.hasTs = false ∨ o.ts = none →
    exec (.getTs o) s = .next { s with result := some (.fault (.operandMismatch o.kind)) })

/-- R71, R165. The reserved `OPC` bytes are exactly the ranges listed, and a request with one ends with
`ILLEGAL_REQUEST`, whatever its operands are: the request is used up and nothing else is written. -/
def Obligations.ReservedOpcodesAreIllegal : Prop :=
  (∀ opc : Byte, decodeOpc opc = none ↔
    (0x04 ≤ opc.toNat ∧ opc.toNat ≤ 0x1F) ∨ (0x25 ≤ opc.toNat ∧ opc.toNat ≤ 0x3F) ∨
    (0x45 ≤ opc.toNat ∧ opc.toNat ≤ 0x5F) ∨ (0x65 ≤ opc.toNat ∧ opc.toNat ≤ 0x7F) ∨
    (0x85 ≤ opc.toNat ∧ opc.toNat ≤ 0x9F) ∨ (0xA2 ≤ opc.toNat ∧ opc.toNat ≤ 0xBF) ∨ 0xC0 ≤ opc.toNat) ∧
  (∀ (s : State) (dst : Nat) (opc : Byte) (args : Operands) (rest : List Request),
    s.pending = ⟨dst, opc, args⟩ :: rest → decodeOpc opc = none →
    step s = .next { s with pending := rest, result := some (.fault (.illegalRequest opc)) })

/-- R168. The priority: `ILLEGAL_REQUEST` before anything the operands could give; then `BAD_CONFIG`, over an object of
the wrong kind and over a short buffer; then `OPERAND_MISMATCH`; `MALFORMED_INPUT` only when the width is legal. -/
def Obligations.FaultPriorityOrder : Prop :=
  (∀ (s : State) (r : Request) (rest : List Request), s.pending = r :: rest → decodeOpc r.opc = none →
    ∃ t, step s = .next t ∧ t.result = some (.fault (.illegalRequest r.opc))) ∧
  (∀ (k : Kind) (cfg : Cfg) (f : Bytes) (o : Cmd) (s : State), o.kind ≠ k →
    ∃ t, exec (.encodeOf k cfg f o) s = .next t ∧
      t.result = some (.fault (if 1 ≤ cfg.ioaWidth ∧ cfg.ioaWidth ≤ 3 then .operandMismatch o.kind
        else .badConfig cfg.ioaWidth))) ∧
  (∀ (k : Kind) (cfg : Cfg) (buf : Bytes) (off : Nat) (s : State), buf.length < off + wireLen k cfg.ioaWidth →
    ∃ t, exec (.decodeOf k cfg buf off) s = .next t ∧
      t.result = some (.fault (if 1 ≤ cfg.ioaWidth ∧ cfg.ioaWidth ≤ 3
        then .malformedInput off (wireLen k cfg.ioaWidth) buf.length else .badConfig cfg.ioaWidth)))

/-- The fault table by request, which the spec marks as its own inference ([derived: from rules R164 to R167]): a request
ends with no fault that its row does not list. -/
def Obligations.FaultTableByRequest : Prop :=
  ∀ (i : Instr) (s t : State) (c : Cause), exec i s = .next t → t.result = some (.fault c) →
    Instr.mayFault i c = true

/-- R161. No PACK, UNPACK, BUILD, APPEND_TS, GET_IOA, GET_STATE, GET_SELECT or GET_QU request faults, whatever its
operands; and no bit of a qualifier byte causes a fault of the requests that can fault: an ENCODE, a DECODE or a GET_TS
ends with the same fault for every other qualifier byte in its place, and a READ_TS, which reads none, for any other
bytes. -/
def Obligations.WhatNeverFaults : Prop :=
  (∀ (i : Instr) (s : State),
    (match i.op with
      | .encode _ => False
      | .decode _ => False
      | .getTs => False
      | .readTs => False
      | _ => True) →
    ∃ v, exec i s = .next { s with result := some (.ok v) }) ∧
  (∀ (k : Kind) (cfg : Cfg) (f : Bytes) (o : Cmd) (q : Byte) (s : State) (c : Cause),
    exec (.encodeOf k cfg f o) s = .next { s with result := some (.fault c) } →
    exec (.encodeOf k cfg f { o with q := q }) s = .next { s with result := some (.fault c) }) ∧
  (∀ (k : Kind) (cfg : Cfg) (buf buf' : Bytes) (off : Nat) (s : State) (c : Cause), buf'.length = buf.length →
    exec (.decodeOf k cfg buf off) s = .next { s with result := some (.fault c) } →
    exec (.decodeOf k cfg buf' off) s = .next { s with result := some (.fault c) }) ∧
  (∀ (o : Cmd) (q : Byte) (s : State) (c : Cause),
    exec (.getTs o) s = .next { s with result := some (.fault c) } →
    exec (.getTs { o with q := q }) s = .next { s with result := some (.fault c) }) ∧
  (∀ (buf buf' : Bytes) (pos : Nat) (s : State) (c : Cause), buf'.length = buf.length →
    exec (.readTs buf pos) s = .next { s with result := some (.fault c) } →
    exec (.readTs buf' pos) s = .next { s with result := some (.fault c) })

/-! ## The request encoding (30_encoding.md Part B) -/

/-- Decoding the request that spells a well-formed instruction gives it back, with every operand. -/
def Obligations.DecodeOfEncodeIsIdentity : Prop :=
  ∀ i : Instr, i.wf = true → decode (encode i).1 (encode i).2 = .ok i

/-- Each request has one spelling: what the decoder accepts is well formed and encodes to the very pair it was read
from. -/
def Obligations.EncodeOfDecodeIsIdentity : Prop :=
  ∀ (opc : Byte) (args : Operands) (i : Instr), decode opc args = .ok i → i.wf = true ∧ encode i = (opc, args)

/-- R68, R69. The fields of the operation byte: FAMILY in bits 7..5, `OPC[4:3] = 00` and the kind code in bits 2..0 of the
BUILD, ENCODE and DECODE families, where bit 0 is `hasTs` and bits 2..1 the qualifier kind (single, double, step). -/
def Obligations.OpcodeFieldsByFamily : Prop :=
  (∀ i : Instr,
    ((encode i).1.extractLsb' 5 3).toNat =
      (match i.op with
        | .packSco => 0
        | .unpackSco => 0
        | .packDcq => 0
        | .unpackDcq => 0
        | .build _ => 1
        | .encode _ => 2
        | .decode _ => 3
        | .getIoa => 4
        | .getState => 4
        | .getSelect => 4
        | .getQu => 4
        | .getTs => 4
        | .appendTs => 5
        | .readTs => 5)) ∧
  (∀ (i : Instr) (k : Kind), i.op = .build k ∨ i.op = .encode k ∨ i.op = .decode k →
    ((encode i).1.extractLsb' 3 2).toNat = 0 ∧
    (encode i).1.getLsbD 0 = k.hasTs ∧
    ((encode i).1.extractLsb' 1 2).toNat =
      (match k with
        | .sc => 0
        | .sct => 0
        | .dc => 1
        | .dct => 1
        | .step => 2))

/-- R70 (with the formats of R67). The opcode map: all 26 words, written out bit by bit, each with every operand bundle of
its format decodes to its request, and that request is spelled by that word; the word of a step with timestamp is
reserved. -/
def Obligations.OpcodeMapWords : Prop :=
  let spells (opc : Byte) (args : Operands) (i : Instr) : Prop := decode opc args = .ok i ∧ encode i = (opc, args)
  (∀ (cmd sel : Bool) (qu : Int), spells 0b00000000 (.q1 cmd sel qu) (.packSco cmd sel qu)) ∧
  (∀ (b : Byte), spells 0b00000001 (.qb b) (.unpackSco b)) ∧
  (∀ (cmd : Int) (sel : Bool) (qu : Int), spells 0b00000010 (.q2 cmd sel qu) (.packDcq cmd sel qu)) ∧
  (∀ (b : Byte), spells 0b00000011 (.qb b) (.unpackDcq b)) ∧
  (∀ (ioa : Nat) (cmd sel : Bool) (qu : Int),
    spells 0b00100000 (.bSco ioa cmd sel qu) (.buildSc ioa cmd sel qu)) ∧
  (∀ (ioa : Nat) (cmd sel : Bool) (qu : Int) (ts : Timestamp),
    spells 0b00100001 (.bScoTs ioa cmd sel qu ts) (.buildSct ioa cmd sel qu ts)) ∧
  (∀ (ioa : Nat) (cmd : Int) (sel : Bool) (qu : Int),
    spells 0b00100010 (.bDcq ioa cmd sel qu) (.buildDc ioa cmd sel qu)) ∧
  (∀ (ioa : Nat) (cmd : Int) (sel : Bool) (qu : Int) (ts : Timestamp),
    spells 0b00100011 (.bDcqTs ioa cmd sel qu ts) (.buildDct ioa cmd sel qu ts)) ∧
  (∀ (ioa : Nat) (cmd : Int) (sel : Bool) (qu : Int),
    spells 0b00100100 (.bDcq ioa cmd sel qu) (.buildStep ioa cmd sel qu)) ∧
  (∀ (cfg : Cfg) (f : Bytes) (o : Cmd), o.wf = true →
    spells 0b01000000 (.e cfg f o) (.encodeSc cfg f o) ∧
    spells 0b01000001 (.e cfg f o) (.encodeSct cfg f o) ∧
    spells 0b01000010 (.e cfg f o) (.encodeDc cfg f o) ∧
    spells 0b01000011 (.e cfg f o) (.encodeDct cfg f o) ∧
    spells 0b01000100 (.e cfg f o) (.encodeStep cfg f o)) ∧
  (∀ (cfg : Cfg) (buf : Bytes) (off : Nat),
    spells 0b01100000 (.d cfg buf off) (.decodeSc cfg buf off) ∧
    spells 0b01100001 (.d cfg buf off) (.decodeSct cfg buf off) ∧
    spells 0b01100010 (.d cfg buf off) (.decodeDc cfg buf off) ∧
    spells 0b01100011 (.d cfg buf off) (.decodeDct cfg buf off) ∧
    spells 0b01100100 (.d cfg buf off) (.decodeStep cfg buf off)) ∧
  (∀ o : Cmd, o.wf = true →
    spells 0b10000000 (.g o) (.getIoa o) ∧
    spells 0b10000001 (.g o) (.getState o) ∧
    spells 0b10000010 (.g o) (.getSelect o) ∧
    spells 0b10000011 (.g o) (.getQu o) ∧
    spells 0b10000100 (.g o) (.getTs o)) ∧
  (∀ (f : Bytes) (ts : Timestamp), spells 0b10100000 (.ta f ts) (.appendTs f ts)) ∧
  (∀ (buf : Bytes) (pos : Nat), spells 0b10100001 (.tr buf pos) (.readTs buf pos)) ∧
  decodeOpc 0b01100101 = none

/-! ## Steps and runs -/

/-- A step runs the decoded request: when the next pending request decodes to `i`, the step is `exec i` on the state with
that request taken off, and then an `ok` value is bound to the request's host variable, a fault to none. -/
def Obligations.StepRunsTheDecodedRequest : Prop :=
  ∀ (s : State) (r : Request) (rest : List Request) (i : Instr),
    s.pending = r :: rest → decode r.opc r.args = .ok i →
    (∀ (t : State) (v : Value), exec i { s with pending := rest } = .next t → t.result = some (.ok v) →
      step s = .next { t with vars := HostVars.set t.vars r.dst v }) ∧
    (∀ (t : State) (c : Cause), exec i { s with pending := rest } = .next t → t.result = some (.fault c) →
      step s = .next t)

/-- The two ways a step answers no state, both the model's own (log 1, log 6), and no other: nothing is pending, or the
next request's operands have not the types its opcode fixes. -/
def Obligations.StepRefusesOnlyThese : Prop :=
  ∀ s : State,
    (s.pending = [] ↔ step s = .refused .noRequest) ∧
    ((∃ r rest, s.pending = r :: rest ∧ r.wellTyped = false) ↔ step s = .refused .illTypedOperands) ∧
    (∀ x, step s = .refused x → x = .noRequest ∨ x = .illTypedOperands) ∧
    (∀ x, step s ≠ .fault x)

/-- Every instruction answers a next state that differs in the result output alone. -/
def Obligations.ExecChangesResultOnly : Prop :=
  ∀ (i : Instr) (s : State), ∃ r : Result, exec i s = .next { s with result := some r }

/-- R20. No state survives from one request to the next: after ANY other requests a request gives the result it gives in
any other state with the same parameters `IOA_CODEC` and `TS_CODEC`; a request outside ENCODE and DECODE does not depend
on the first, and one without a timestamp on the wire does not depend on the second. -/
def Obligations.NothingSurvivesARequest : Prop :=
  ∀ (i : Instr) (s s' : State),
    (s.ioaCodec = s'.ioaCodec ∨ (∀ k, i.op ≠ .encode k ∧ i.op ≠ .decode k)) →
    (s.tsCodec = s'.tsCodec ∨
      (i.op ≠ .appendTs ∧ i.op ≠ .readTs ∧ ∀ k, k.hasTs = true → i.op ≠ .encode k ∧ i.op ≠ .decode k)) →
    ∃ r, exec i s = .next { s with result := some r } ∧ exec i s' = .next { s' with result := some r }

/-- What a step leaves unchanged (objects are immutable, R30; a fault writes nothing, R52, R169; `<dst>` is written by an
`ok` result only, R73): one request is used up, the codecs stay, every host variable but `<dst>` stays, and every one
stays when the result is a fault. -/
def Obligations.StepFrameAndBinding : Prop :=
  ∀ (s t : State) (r : Request) (rest : List Request), s.pending = r :: rest → step s = .next t →
    t.pending = rest ∧ t.ioaCodec = s.ioaCodec ∧ t.tsCodec = s.tsCodec ∧
    (∀ n, n ≠ r.dst → HostVars.get t.vars n = HostVars.get s.vars n) ∧
    ((∃ v, t.result = some (.ok v) ∧ HostVars.get t.vars r.dst = some v) ∨
      (∃ c, t.result = some (.fault c) ∧ t.vars = s.vars))

/-- Reset: no request, no host variable, status unset (95 Part 3), the default codecs (the model's choice, log 3 and
log 5); and the invariant of a run holds there. -/
def Obligations.ResetIsWellTyped : Prop :=
  State.reset.pending = [] ∧ State.reset.vars = [] ∧ State.reset.status = none ∧ State.reset.ioaCodec = .lsbFirst ∧
  State.reset.tsCodec = .identity ∧ Inv State.reset

/-- Every step keeps the invariant: pending requests are well typed, host variables are in canonical form, and every value
the host holds is one a request can give; for an object, a timestamp exactly when the kind is SCT or DCT (R29, R152). -/
def Obligations.StepKeepsWellTyped : Prop :=
  ∀ s t : State, Inv s → step s = .next t → Inv t

/-- No request is stuck: in every well-typed state with a request pending, the step answers a next state, the request is
used up, and the result is that request's own: what `exec` of the instruction it decodes to answers on the state with the
request taken off, or `ILLEGAL_REQUEST` of its reserved `OPC`. -/
def Obligations.NoRequestIsStuck : Prop :=
  ∀ (s : State) (req : Request) (rest : List Request), Inv s → s.pending = req :: rest →
    ∃ (t : State) (r : Result), step s = .next t ∧ t.pending = rest ∧ t.result = some r ∧ r.status ≤ 4 ∧
      ((∃ i, decode req.opc req.args = .ok i ∧
          exec i { s with pending := rest } = .next { s with pending := rest, result := some r }) ∨
        (decodeOpc req.opc = none ∧ r = .fault (.illegalRequest req.opc)))

/-- Every run ends: from every well-typed state, as many steps as there are pending requests perform them all, none is
refused, and the state reached is well typed. -/
def Obligations.EveryRunEnds : Prop :=
  ∀ s : State, Inv s →
    ∃ t : State, Host.Core.run Sys2Proof.core s.pending.length s = .next t ∧ t.pending = [] ∧ Inv t ∧
      t.ioaCodec = s.ioaCodec ∧ t.tsCodec = s.tsCodec

/-- Requests from distinct callers commute: two well-typed requests bound to distinct host variables, performed in either
order, leave the same host variables and the same rest of the sequence. -/
def Obligations.IndependentRequestsCommute : Prop :=
  ∀ (s : State) (r1 r2 : Request) (rest : List Request),
    Inv s → s.pending = r1 :: r2 :: rest → r1.dst ≠ r2.dst →
    ∃ a t b u : State, step s = .next a ∧ step a = .next t ∧
      step { s with pending := r2 :: r1 :: rest } = .next b ∧ step b = .next u ∧
      t.vars = u.vars ∧ t.pending = u.pending ∧ b.result = t.result ∧ a.result = u.result
end

