-- ==== Sys2Proof/Laws/Decode.lean ====
section
/-! SUPPORT. The decoder's small facts. -/

namespace Sys2Proof

/-- A reserved `OPC` is rejected whatever the operands are (R165). -/
theorem decode_of_reserved {opc : Byte} (h : decodeOpc opc = none) (args : Operands) :
    decode opc args = .error (.reserved opc) := by
  simp [decode, h]

/-- What the decoder accepts is well formed. -/
theorem decode_wf {opc : Byte} {args : Operands} {i : Instr} (h : decode opc args = .ok i) : i.wf = true := by
  unfold decode at h
  split at h
  · cases h
  · split at h
    · cases h
    · split at h
      · rename_i hw; cases h; exact hw
      · cases h

/-- The encoder's byte names the operation it was made from. -/
theorem decodeOpc_opc (op : Op) : decodeOpc op.opc = some op := by
  cases op <;> first | rfl | (rename_i k; cases k <;> rfl)

/-- A byte that names an operation is the byte the opcode map gives that operation. -/
theorem opc_decodeOpc : ∀ (opc : Byte) (op : Op), decodeOpc opc = some op → op.opc = opc := by
  have key : ∀ opc : Byte, (match decodeOpc opc with | some op => op.opc == opc | none => true) = true := by decide
  intro opc op h
  have := key opc
  rw [h] at this
  simpa using this

end Sys2Proof
end

