-- ==== Sys2Proof/Laws/State.lean ====
section
/-! SUPPORT. The fields of the state after each update. -/

namespace Sys2Proof.Machine

variable (s : State) (r : Result) (rs : List Request) (vs : HostVars)

@[simp] theorem State.setResult_pending : (s.setResult r).pending = s.pending := rfl
@[simp] theorem State.setResult_vars : (s.setResult r).vars = s.vars := rfl
@[simp] theorem State.setResult_result : (s.setResult r).result = some r := rfl
@[simp] theorem State.setResult_ioaCodec : (s.setResult r).ioaCodec = s.ioaCodec := rfl
@[simp] theorem State.setResult_tsCodec : (s.setResult r).tsCodec = s.tsCodec := rfl

@[simp] theorem State.setPending_pending : (s.setPending rs).pending = rs := rfl
@[simp] theorem State.setPending_vars : (s.setPending rs).vars = s.vars := rfl
@[simp] theorem State.setPending_result : (s.setPending rs).result = s.result := rfl
@[simp] theorem State.setPending_ioaCodec : (s.setPending rs).ioaCodec = s.ioaCodec := rfl
@[simp] theorem State.setPending_tsCodec : (s.setPending rs).tsCodec = s.tsCodec := rfl

@[simp] theorem State.setVars_pending : (s.setVars vs).pending = s.pending := rfl
@[simp] theorem State.setVars_vars : (s.setVars vs).vars = vs := rfl
@[simp] theorem State.setVars_result : (s.setVars vs).result = s.result := rfl
@[simp] theorem State.setVars_ioaCodec : (s.setVars vs).ioaCodec = s.ioaCodec := rfl
@[simp] theorem State.setVars_tsCodec : (s.setVars vs).tsCodec = s.tsCodec := rfl

/-- An `ok` result is bound to its variable, and nothing else changes. -/
theorem State.bindResult_ok (dst : Nat) (v : Value) :
    (s.setResult (.ok v)).bindResult dst = (s.setResult (.ok v)).setVars (HostVars.set s.vars dst v) := rfl

/-- A fault leaves its variable unwritten. -/
theorem State.bindResult_fault (dst : Nat) (c : Cause) :
    (s.setResult (.fault c)).bindResult dst = s.setResult (.fault c) := rfl

end Sys2Proof.Machine
end

