-- ==== Sys2Proof/Laws/Ops.lean ====
section
/-! SUPPORT. What each shared operation does, said once. -/

namespace Sys2Proof.Machine

/-! ## Ending a request -/

theorem State.answer_eq (v : Value) (s : State) : s.answer v = .next (s.setResult (.ok v)) := rfl

theorem State.raise_eq (c : Cause) (s : State) : s.raise c = .next (s.setResult (.fault c)) := rfl

@[simp] theorem deliver_ok {α : Type} (out : α → Value) (a : α) (s : State) :
    deliver out (.ok a) s = .next (s.setResult (.ok (out a))) := rfl

@[simp] theorem deliver_error {α : Type} (out : α → Value) (c : Cause) (s : State) :
    deliver out (.error c) s = .next (s.setResult (.fault c)) := rfl

/-- A delivered computation always answers a next state that differs in the result alone. -/
theorem deliver_next {α : Type} (out : α → Value) (x : Except Cause α) (s : State) :
    ∃ r, deliver out x s = .next (s.setResult r) := by
  cases x with
  | ok a => exact ⟨_, rfl⟩
  | error c => exact ⟨_, rfl⟩

@[simp] theorem complete_next (dst : Nat) (s : State) : complete dst (.next s) = .next (s.bindResult dst) := rfl

/-! ## The host variables -/

theorem HostVars.get_set_same (vs : HostVars) (n : Nat) (v : Value) : HostVars.get (HostVars.set vs n v) n = some v := by
  induction vs with
  | nil => simp [HostVars.set, HostVars.get]
  | cons p rest ih =>
    obtain ⟨k, w⟩ := p
    unfold HostVars.set
    split
    · simp [HostVars.get]
    · split
      · simp [HostVars.get]
      · simp [HostVars.get, *]

theorem HostVars.get_set_other (vs : HostVars) {n m : Nat} (v : Value) (h : m ≠ n) :
    HostVars.get (HostVars.set vs n v) m = HostVars.get vs m := by
  induction vs with
  | nil => simp [HostVars.set, HostVars.get, h]
  | cons p rest ih =>
    obtain ⟨k, w⟩ := p
    unfold HostVars.set
    split
    · simp [HostVars.get, h]
    · split
      · rename_i h2; subst h2; simp [HostVars.get, h]
      · simp [HostVars.get, ih]

/-- Every entry of the store after a write is the entry written or an entry from before. -/
theorem HostVars.mem_set {vs : HostVars} {n : Nat} {v : Value} {p : Nat × Value} (h : p ∈ HostVars.set vs n v) :
    p = (n, v) ∨ p ∈ vs := by
  induction vs with
  | nil => simpa [HostVars.set] using h
  | cons q rest ih =>
    obtain ⟨k, w⟩ := q
    unfold HostVars.set at h
    split at h
    · simpa using h
    · split at h
      · simp only [List.mem_cons] at h ⊢; tauto
      · simp only [List.mem_cons] at h ⊢
        rcases h with h | h
        · exact .inr (.inl h)
        · have := ih h; tauto

/-- Writing a variable keeps the canonical form. -/
theorem HostVars.set_wf {vs : HostVars} (h : HostVars.wf vs) (n : Nat) (v : Value) :
    HostVars.wf (HostVars.set vs n v) := by
  induction vs with
  | nil => simp [HostVars.set, HostVars.wf]
  | cons p rest ih =>
    obtain ⟨k, w⟩ := p
    simp only [HostVars.wf, List.pairwise_cons] at h ih ⊢
    obtain ⟨hk, hr⟩ := h
    unfold HostVars.set
    split
    · rename_i hn
      refine List.pairwise_cons.2 ⟨?_, List.pairwise_cons.2 ⟨hk, hr⟩⟩
      intro q hq
      rcases List.mem_cons.1 hq with rfl | hq
      · exact hn
      · exact Nat.lt_trans hn (hk q hq)
    · split
      · rename_i hn; subst hn; exact List.pairwise_cons.2 ⟨hk, hr⟩
      · rename_i h1 h2
        refine List.pairwise_cons.2 ⟨?_, ih hr⟩
        intro q hq
        rcases HostVars.mem_set hq with rfl | hq
        · change k < n; omega
        · exact hk q hq

/-- The reset state's host variables are in canonical form. -/
theorem HostVars.reset_wf : HostVars.wf State.reset.vars := List.Pairwise.nil

/-- A variable below every listed number is unwritten. -/
theorem HostVars.get_of_lt {vs : HostVars} {n : Nat} (h : ∀ p ∈ vs, n < p.1) : HostVars.get vs n = none := by
  induction vs with
  | nil => rfl
  | cons p rest ih =>
    obtain ⟨k, w⟩ := p
    have hk : n < k := h (k, w) List.mem_cons_self
    unfold HostVars.get
    rw [if_neg (by omega)]
    exact ih fun q hq => h q (List.mem_cons_of_mem _ hq)

/-- The form is canonical: stores in it that hold the same values are the same data. -/
theorem HostVars.ext_of_wf {a b : HostVars} (ha : HostVars.wf a) (hb : HostVars.wf b)
    (h : ∀ n, HostVars.get a n = HostVars.get b n) : a = b := by
  induction a generalizing b with
  | nil =>
    cases b with
    | nil => rfl
    | cons q b => obtain ⟨k, v⟩ := q; simpa [HostVars.get] using h k
  | cons p a ih =>
    obtain ⟨k, v⟩ := p
    cases b with
    | nil => simpa [HostVars.get] using h k
    | cons q b =>
      obtain ⟨k', v'⟩ := q
      obtain ⟨ha1, ha2⟩ := List.pairwise_cons.1 ha
      obtain ⟨hb1, hb2⟩ := List.pairwise_cons.1 hb
      have hk : k = k' := by
        rcases Nat.lt_trichotomy k k' with hlt | he | hlt
        · have hn : HostVars.get ((k', v') :: b) k = none := HostVars.get_of_lt fun c hc => by
            rcases List.mem_cons.1 hc with rfl | hc
            · exact hlt
            · exact Nat.lt_trans hlt (hb1 c hc)
          rw [← h k] at hn
          simp [HostVars.get] at hn
        · exact he
        · have hn : HostVars.get ((k, v) :: a) k' = none := HostVars.get_of_lt fun c hc => by
            rcases List.mem_cons.1 hc with rfl | hc
            · exact hlt
            · exact Nat.lt_trans hlt (ha1 c hc)
          rw [h k'] at hn
          simp [HostVars.get] at hn
      subst hk
      obtain rfl : v = v' := by simpa [HostVars.get] using h k
      rw [ih ha2 hb2]
      intro n
      by_cases hn : n = k
      · subst hn; rw [HostVars.get_of_lt ha1, HostVars.get_of_lt hb1]
      · simpa [HostVars.get, hn] using h n

/-! ## Reading a buffer -/

/-- R11: within the buffer, `BufRead(buf, i)` is `buf[i]`. -/
theorem bufRead_of_lt {buf : Bytes} {i : Nat} (h : i < buf.length) : bufRead buf i = buf[i] := by
  simp [bufRead, List.getD_eq_getElem?_getD, h]

theorem bufRead_getElem? {buf : Bytes} {i : Nat} (h : i < buf.length) : buf[i]? = some (bufRead buf i) := by
  rw [bufRead_of_lt h, List.getElem?_eq_getElem h]

/-- A slice that lies in the buffer is the buffer's own bytes. -/
theorem bufSlice_eq {buf : Bytes} {i n : Nat} (h : i + n ≤ buf.length) : bufSlice buf i n = (buf.drop i).take n := by
  apply List.ext_getElem
  · simp [bufSlice]; omega
  · intro k h1 h2
    have hk : k < n := by simpa [bufSlice] using h1
    simp [bufSlice, bufRead_of_lt (show i + k < buf.length by omega)]

/-! ## The timestamp codec -/

/-- Seven bytes in index order determine the timestamp value they stand in. -/
theorem Timestamp.bytes_inj {t u : Timestamp} (h : t.bytes = u.bytes) : t = u := by
  cases t; cases u; simp_all [Timestamp.bytes]

/-- The timestamp segment is exactly seven bytes, whatever the codec (R6). -/
@[simp] theorem tsEncode_length (T : TsCodec) (t : Timestamp) : (tsEncode T t).length = 7 := by
  cases T <;> rfl

/-- The value read from seven bytes is written as those bytes, whatever the codec (R8). -/
@[simp] theorem tsEncode_tsDecode (T : TsCodec) (w : Timestamp) : tsEncode T (tsDecode T w) = w.bytes := by
  cases T <;> simp [tsEncode, tsDecode]

/-- Every codec preserves the value: no two values have the same wire bytes (R8). -/
theorem tsEncode_inj {T : TsCodec} {t u : Timestamp} (h : tsEncode T t = tsEncode T u) : t = u := by
  cases T with
  | identity => exact Timestamp.bytes_inj h
  | collaborator => exact Config.tsWire.injective (Timestamp.bytes_inj h)

/-! ## The address codec -/

/-- The address segment is exactly `A` bytes, whatever the codec (R7, R47). -/
@[simp] theorem ioaEncode_length (C : IoaCodec) (ioa A : Nat) : (ioaEncode C ioa A).length = A := by
  cases C <;> simp [ioaEncode]

/-! ## READ_TS -/

/-- When seven bytes remain, READ_TS returns the value the codec reads from them (R151, R8). -/
theorem readTs_ok {T : TsCodec} {buf : Bytes} {pos : Nat} (h : pos + 7 ≤ buf.length) :
    ∃ w : Timestamp, w.bytes = (buf.drop pos).take 7 ∧ readTs T buf pos = .ok (tsDecode T w) := by
  have h' : ¬ buf.length < pos + Config.tsWidth := by simpa [Config.tsWidth] using h
  simp only [readTs, if_neg h']
  refine ⟨_, ?_, rfl⟩
  rw [← bufSlice_eq h]
  rfl

theorem readTs_short {T : TsCodec} {buf : Bytes} {pos : Nat} (h : buf.length < pos + 7) :
    readTs T buf pos = .error (.malformedInput pos 7 buf.length) := by
  simp [readTs, Config.tsWidth, h]

/-- READ_TS at the place of an APPEND_TS gives the value back, whatever follows it and whatever the codec. -/
theorem readTs_appendTs (T : TsCodec) (f g : Bytes) (ts : Timestamp) :
    readTs T (appendTs T f ts ++ g) f.length = .ok ts := by
  obtain ⟨w, hw, hok⟩ := readTs_ok (T := T) (buf := appendTs T f ts ++ g) (pos := f.length)
    (by simp [appendTs, frameAppend])
  rw [hok, tsEncode_inj (T := T) (t := tsDecode T w) (u := ts)]
  simpa [appendTs, frameAppend, List.append_assoc, List.take_append_of_le_length] using hw

/-! ## EncodeK (R120) -/

variable {C : IoaCodec} {T : TsCodec} {k : Kind} {cfg : Cfg}

theorem encodeK_badConfig {f : Bytes} {o : Cmd} (h : ¬ legalWidth cfg.ioaWidth) :
    encodeK C T k cfg f o = .error (.badConfig cfg.ioaWidth) := by
  rw [encodeK, if_pos h]

theorem encodeK_mismatch {f : Bytes} {o : Cmd} (h : legalWidth cfg.ioaWidth)
    (hk : o.kind ≠ k) : encodeK C T k cfg f o = .error (.operandMismatch o.kind) := by
  rw [encodeK, if_neg (not_not.2 h), if_pos hk]

theorem encodeK_plain {f : Bytes} {o : Cmd} (h : legalWidth cfg.ioaWidth)
    (hk : o.kind = k) (ht : k.hasTs = false) :
    encodeK C T k cfg f o = .ok (f ++ ioaEncode C o.ioa cfg.ioaWidth ++ [o.q]) := by
  rw [encodeK, if_neg (not_not.2 h), if_neg (not_not.2 hk)]
  simp [ht, frameAppend]

theorem encodeK_stamped {f : Bytes} {o : Cmd} {t : Timestamp}
    (h : legalWidth cfg.ioaWidth) (hk : o.kind = k) (ht : k.hasTs = true) (hts : o.ts = some t) :
    encodeK C T k cfg f o = .ok (f ++ ioaEncode C o.ioa cfg.ioaWidth ++ [o.q] ++ tsEncode T t) := by
  rw [encodeK, if_neg (not_not.2 h), if_neg (not_not.2 hk)]
  simp [ht, hts, frameAppend, appendTs]

/-- Everything a successful EncodeK tells: the configuration is legal, the kind is `k`, and the frame grew by the
segments of R44. -/
theorem encodeK_ok {f : Bytes} {o : Cmd} {w : Bytes}
    (h : encodeK C T k cfg f o = .ok w) :
    legalWidth cfg.ioaWidth ∧ o.kind = k ∧
      ((k.hasTs = false ∧ w = f ++ ioaEncode C o.ioa cfg.ioaWidth ++ [o.q]) ∨
        ∃ t, k.hasTs = true ∧ o.ts = some t ∧ w = f ++ ioaEncode C o.ioa cfg.ioaWidth ++ [o.q] ++ tsEncode T t) := by
  by_cases hl : legalWidth cfg.ioaWidth
  · by_cases hk : o.kind = k
    · refine ⟨hl, hk, ?_⟩
      cases ht : k.hasTs with
      | false => rw [encodeK_plain hl hk ht] at h; exact .inl ⟨rfl, (Except.ok.inj h).symm⟩
      | true =>
        cases hts : o.ts with
        | some t => rw [encodeK_stamped hl hk ht hts] at h; exact .inr ⟨t, rfl, rfl, (Except.ok.inj h).symm⟩
        | none =>
          rw [encodeK, if_neg (not_not.2 hl), if_neg (not_not.2 hk)] at h
          simp [ht, hts] at h
    · rw [encodeK_mismatch hl hk] at h; cases h
  · rw [encodeK_badConfig hl] at h; cases h

/-- Every fault EncodeK can end with. -/
theorem encodeK_error {f : Bytes} {o : Cmd} {c : Cause}
    (h : encodeK C T k cfg f o = .error c) : c = .badConfig cfg.ioaWidth ∨ c = .operandMismatch o.kind := by
  unfold encodeK at h
  split at h
  · exact .inl (Except.error.inj h).symm
  · split at h
    · exact .inr (Except.error.inj h).symm
    · dsimp only at h
      split at h
      · split at h
        · cases h
        · exact .inr (Except.error.inj h).symm
      · cases h

/-! ## DecodeK (R130) -/

theorem decodeK_badConfig {buf : Bytes} {off : Nat}
    (h : ¬ legalWidth cfg.ioaWidth) : decodeK C T k cfg buf off = .error (.badConfig cfg.ioaWidth) := by
  simp only [decodeK]; rw [if_pos h]

theorem decodeK_short {buf : Bytes} {off : Nat} (h : legalWidth cfg.ioaWidth)
    (hs : buf.length < off + wireLen k cfg.ioaWidth) :
    decodeK C T k cfg buf off = .error (.malformedInput off (wireLen k cfg.ioaWidth) buf.length) := by
  simp only [decodeK]; rw [if_neg (not_not.2 h), if_pos hs]

theorem wireLen_plain {k : Kind} (A : Nat) (h : k.hasTs = false) : wireLen k A = A + 1 := by
  simp [wireLen, h, Config.qualWidth]

theorem wireLen_stamped {k : Kind} (A : Nat) (h : k.hasTs = true) : wireLen k A = A + 8 := by
  simp [wireLen, h, Config.qualWidth, Config.tsWidth]

theorem decodeK_plain {buf : Bytes} {off : Nat} (h : legalWidth cfg.ioaWidth)
    (ht : k.hasTs = false) (hs : off + (cfg.ioaWidth + 1) ≤ buf.length) :
    decodeK C T k cfg buf off =
      .ok (⟨k, ioaDecode C ((buf.drop off).take cfg.ioaWidth), bufRead buf (off + cfg.ioaWidth), none⟩,
        off + (cfg.ioaWidth + 1)) := by
  have hs' : ¬ buf.length < off + wireLen k cfg.ioaWidth := by rw [wireLen_plain _ ht]; omega
  simp only [decodeK]
  rw [if_neg (not_not.2 h), if_neg hs', bufSlice_eq (by omega)]
  simp [ht, wireLen_plain]

theorem decodeK_stamped {buf : Bytes} {off : Nat} (h : legalWidth cfg.ioaWidth)
    (ht : k.hasTs = true) (hs : off + (cfg.ioaWidth + 8) ≤ buf.length) :
    ∃ w : Timestamp, w.bytes = (buf.drop (off + cfg.ioaWidth + 1)).take 7 ∧
      decodeK C T k cfg buf off =
        .ok (⟨k, ioaDecode C ((buf.drop off).take cfg.ioaWidth), bufRead buf (off + cfg.ioaWidth),
          some (tsDecode T w)⟩, off + (cfg.ioaWidth + 8)) := by
  have hs' : ¬ buf.length < off + wireLen k cfg.ioaWidth := by rw [wireLen_stamped _ ht]; omega
  obtain ⟨w, hw, hok⟩ := readTs_ok (T := T) (buf := buf) (pos := off + cfg.ioaWidth + 1) (by omega)
  refine ⟨w, hw, ?_⟩
  simp only [decodeK]
  rw [if_neg (not_not.2 h), if_neg hs', bufSlice_eq (by omega)]
  simp [ht, wireLen_stamped, hok]

/-- Every fault DecodeK can end with. -/
theorem decodeK_error {buf : Bytes} {off : Nat} {c : Cause}
    (h : decodeK C T k cfg buf off = .error c) :
    c = .badConfig cfg.ioaWidth ∨ c = .malformedInput off (wireLen k cfg.ioaWidth) buf.length := by
  by_cases hl : legalWidth cfg.ioaWidth
  · by_cases hs : buf.length < off + wireLen k cfg.ioaWidth
    · rw [decodeK_short hl hs] at h; exact .inr (Except.error.inj h).symm
    · cases ht : k.hasTs with
      | false =>
        rw [wireLen_plain _ ht] at hs
        rw [decodeK_plain hl ht (by omega)] at h; cases h
      | true =>
        rw [wireLen_stamped _ ht] at hs
        obtain ⟨t, -, h'⟩ :=
          decodeK_stamped (C := C) (T := T) hl ht (show off + (cfg.ioaWidth + 8) ≤ buf.length by omega)
        rw [h'] at h; cases h
  · rw [decodeK_badConfig hl] at h; exact .inl (Except.error.inj h).symm

/-- What DecodeK returns is a command object of the kind asked for, well formed (R29), and `next` is the index after
it. -/
theorem decodeK_ok {buf : Bytes} {off : Nat} {r : Cmd × Nat}
    (h : decodeK C T k cfg buf off = .ok r) :
    legalWidth cfg.ioaWidth ∧ off + wireLen k cfg.ioaWidth ≤ buf.length ∧ r.1.kind = k ∧ r.1.wf = true ∧
      r.2 = off + wireLen k cfg.ioaWidth := by
  by_cases hl : legalWidth cfg.ioaWidth
  · by_cases hs : buf.length < off + wireLen k cfg.ioaWidth
    · rw [decodeK_short hl hs] at h; cases h
    · refine ⟨hl, by omega, ?_⟩
      cases ht : k.hasTs with
      | false =>
        rw [wireLen_plain _ ht] at hs ⊢
        rw [decodeK_plain hl ht (by omega)] at h
        obtain rfl := Except.ok.inj h
        simp [Cmd.wf, ht]
      | true =>
        rw [wireLen_stamped _ ht] at hs ⊢
        obtain ⟨t, -, h'⟩ :=
          decodeK_stamped (C := C) (T := T) hl ht (show off + (cfg.ioaWidth + 8) ≤ buf.length by omega)
        rw [h'] at h
        obtain rfl := Except.ok.inj h
        simp [Cmd.wf, ht]
  · rw [decodeK_badConfig hl] at h; cases h

end Sys2Proof.Machine
end

