-- ==== Sys2Proof/Laws/PerInstr.lean ====
section
/-! SUPPORT. Facts about every request as syntax, one lemma per constructor of `Instr`. -/

namespace Sys2Proof.Laws.OpcodeNamesOperation

/-- The `OPC` of a request decodes to its operation (R70), and its operand bundle has the format of that operation
(R67). -/
def Statement (i : Instr) : Prop := decodeOpc i.op.opc = some i.op ∧ i.operands.format = i.op.format

theorem packSco (cmd sel : Bool) (qu : Int) : Statement (.packSco cmd sel qu) := ⟨decodeOpc_opc _, rfl⟩
theorem unpackSco (b : Byte) : Statement (.unpackSco b) := ⟨decodeOpc_opc _, rfl⟩
theorem packDcq (cmd : Int) (sel : Bool) (qu : Int) : Statement (.packDcq cmd sel qu) := ⟨decodeOpc_opc _, rfl⟩
theorem unpackDcq (b : Byte) : Statement (.unpackDcq b) := ⟨decodeOpc_opc _, rfl⟩
theorem buildSc (ioa : Nat) (cmd sel : Bool) (qu : Int) : Statement (.buildSc ioa cmd sel qu) := ⟨decodeOpc_opc _, rfl⟩
theorem buildSct (ioa : Nat) (cmd sel : Bool) (qu : Int) (ts : Timestamp) : Statement (.buildSct ioa cmd sel qu ts) := ⟨decodeOpc_opc _, rfl⟩
theorem buildDc (ioa : Nat) (cmd : Int) (sel : Bool) (qu : Int) : Statement (.buildDc ioa cmd sel qu) := ⟨decodeOpc_opc _, rfl⟩
theorem buildDct (ioa : Nat) (cmd : Int) (sel : Bool) (qu : Int) (ts : Timestamp) : Statement (.buildDct ioa cmd sel qu ts) := ⟨decodeOpc_opc _, rfl⟩
theorem buildStep (ioa : Nat) (cmd : Int) (sel : Bool) (qu : Int) : Statement (.buildStep ioa cmd sel qu) := ⟨decodeOpc_opc _, rfl⟩
theorem encodeSc (cfg : Cfg) (f : Bytes) (o : Cmd) : Statement (.encodeSc cfg f o) := ⟨decodeOpc_opc _, rfl⟩
theorem encodeSct (cfg : Cfg) (f : Bytes) (o : Cmd) : Statement (.encodeSct cfg f o) := ⟨decodeOpc_opc _, rfl⟩
theorem encodeDc (cfg : Cfg) (f : Bytes) (o : Cmd) : Statement (.encodeDc cfg f o) := ⟨decodeOpc_opc _, rfl⟩
theorem encodeDct (cfg : Cfg) (f : Bytes) (o : Cmd) : Statement (.encodeDct cfg f o) := ⟨decodeOpc_opc _, rfl⟩
theorem encodeStep (cfg : Cfg) (f : Bytes) (o : Cmd) : Statement (.encodeStep cfg f o) := ⟨decodeOpc_opc _, rfl⟩
theorem decodeSc (cfg : Cfg) (buf : Bytes) (off : Nat) : Statement (.decodeSc cfg buf off) := ⟨decodeOpc_opc _, rfl⟩
theorem decodeSct (cfg : Cfg) (buf : Bytes) (off : Nat) : Statement (.decodeSct cfg buf off) := ⟨decodeOpc_opc _, rfl⟩
theorem decodeDc (cfg : Cfg) (buf : Bytes) (off : Nat) : Statement (.decodeDc cfg buf off) := ⟨decodeOpc_opc _, rfl⟩
theorem decodeDct (cfg : Cfg) (buf : Bytes) (off : Nat) : Statement (.decodeDct cfg buf off) := ⟨decodeOpc_opc _, rfl⟩
theorem decodeStep (cfg : Cfg) (buf : Bytes) (off : Nat) : Statement (.decodeStep cfg buf off) := ⟨decodeOpc_opc _, rfl⟩
theorem getIoa (o : Cmd) : Statement (.getIoa o) := ⟨decodeOpc_opc _, rfl⟩
theorem getState (o : Cmd) : Statement (.getState o) := ⟨decodeOpc_opc _, rfl⟩
theorem getSelect (o : Cmd) : Statement (.getSelect o) := ⟨decodeOpc_opc _, rfl⟩
theorem getQu (o : Cmd) : Statement (.getQu o) := ⟨decodeOpc_opc _, rfl⟩
theorem getTs (o : Cmd) : Statement (.getTs o) := ⟨decodeOpc_opc _, rfl⟩
theorem appendTs (f : Bytes) (ts : Timestamp) : Statement (.appendTs f ts) := ⟨decodeOpc_opc _, rfl⟩
theorem readTs (buf : Bytes) (pos : Nat) : Statement (.readTs buf pos) := ⟨decodeOpc_opc _, rfl⟩

end Sys2Proof.Laws.OpcodeNamesOperation
end

