-- ==== Sys2Proof/Laws/Qualifier.lean ====
section
/-! SUPPORT. The fields of a packed qualifier byte. The packed byte depends on its integer operands through their
remainders alone, so each fact is decided on the finitely many remainders. -/

namespace Sys2Proof.Machine

theorem exists_fin32 (qu : Int) : ∃ n : Fin 32, qu % 32 = n.val := by
  refine ⟨⟨(qu % 32).toNat, by omega⟩, ?_⟩
  change qu % 32 = ((qu % 32).toNat : Int)
  omega

theorem exists_fin4 (cmd : Int) : ∃ n : Fin 4, cmd % 4 = n.val := by
  refine ⟨⟨(cmd % 4).toNat, by omega⟩, ?_⟩
  change cmd % 4 = ((cmd % 4).toNat : Int)
  omega

theorem packSco_of_fin {qu : Int} {n : Fin 32} (h : qu % 32 = n.val) (c sel : Bool) :
    packSco c sel qu = packSco c sel n.val := by
  have hq : quBits qu = quBits n.val := by
    have hn : ((n.val : Int) % 32) = n.val := by have := n.2; omega
    simp only [quBits, h, hn]
  simp only [packSco, hq]

theorem packDcq_of_fin {cmd qu : Int} {m : Fin 4} {n : Fin 32} (hm : cmd % 4 = m.val) (h : qu % 32 = n.val) (sel : Bool) :
    packDcq cmd sel qu = packDcq m.val sel n.val := by
  have hq : quBits qu = quBits n.val := by
    have hn : ((n.val : Int) % 32) = n.val := by have := n.2; omega
    simp only [quBits, h, hn]
  have hc : ((m.val : Int) % 4) = m.val := by have := m.2; omega
  simp only [packDcq, hq, hm, hc]

end Sys2Proof.Machine
end

