-- ==== Sys2Proof/Laws/Step.lean ====
section
/-! SUPPORT. What a meaning and a step can do, said once. -/

namespace Sys2Proof.Machine

theorem exec_encodeOf (k : Kind) (cfg : Cfg) (f : Bytes) (o : Cmd) (s : State) :
    exec (.encodeOf k cfg f o) s = deliver .frame (encodeK s.ioaCodec s.tsCodec k cfg f o) s := by
  cases k <;> rfl

theorem exec_decodeOf (k : Kind) (cfg : Cfg) (buf : Bytes) (off : Nat) (s : State) :
    exec (.decodeOf k cfg buf off) s = deliver decodedValue (decodeK s.ioaCodec s.tsCodec k cfg buf off) s := by
  cases k <;> rfl

theorem exec_getState (o : Cmd) (s : State) :
    exec (.getState o) s =
      .next (s.setResult (.ok (match o.kind.qk with | .sco => .bool (scoState o.q) | .dcq => .nat (dcqState o.q)))) := by
  change execGetState o s = _
  unfold execGetState
  cases o.kind.qk <;> rfl

theorem exec_getTs_some {o : Cmd} {t : Timestamp} (hk : o.kind.hasTs = true) (ht : o.ts = some t) (s : State) :
    exec (.getTs o) s = .next (s.setResult (.ok (.timestamp t))) := by
  change execGetTs o s = _
  simp [execGetTs, hk, ht, State.answer_eq]

theorem exec_getTs_mismatch {o : Cmd} (h : o.kind.hasTs = false ∨ o.ts = none) (s : State) :
    exec (.getTs o) s = .next (s.setResult (.fault (.operandMismatch o.kind))) := by
  change execGetTs o s = _
  unfold execGetTs
  rcases h with h | h
  · simp [h, State.raise_eq]
  · cases o.kind.hasTs <;> simp [h, State.raise_eq]

theorem step_empty {s : State} (h : s.pending = []) : step s = .refused .noRequest := by
  simp [step, h]

theorem step_cons {s : State} {r : Request} {rest : List Request} (h : s.pending = r :: rest) :
    step s = perform exec r (s.setPending rest) := by
  simp [step, h]

theorem perform_ok {run : Instr → State → Out} {r : Request} {i : Instr} (h : decode r.opc r.args = .ok i) (s : State) :
    perform run r s = complete r.dst (run i s) := by
  simp [perform, h]

theorem perform_reserved {run : Instr → State → Out} {r : Request} (h : decodeOpc r.opc = none) (s : State) :
    perform run r s = .next (s.setResult (.fault (.illegalRequest r.opc))) := by
  simp only [perform, decode, h]
  rfl

theorem wellTyped_of_reserved {r : Request} (h : decodeOpc r.opc = none) : r.wellTyped = true := by
  simp [Request.wellTyped, decode_of_reserved h]

/-- Everything performing a request can come to: its meaning runs and the result is bound, the `OPC` is reserved, or the
operands are ill typed. -/
theorem perform_cases (run : Instr → State → Out) (r : Request) (s : State) :
    (∃ i, decode r.opc r.args = .ok i ∧ perform run r s = complete r.dst (run i s)) ∨
    (decodeOpc r.opc = none ∧ perform run r s = .next (s.setResult (.fault (.illegalRequest r.opc)))) ∨
    (r.wellTyped = false ∧ perform run r s = .refused .illTypedOperands) := by
  by_cases hd : decodeOpc r.opc = none
  · exact .inr (.inl ⟨hd, perform_reserved hd s⟩)
  · cases h : decode r.opc r.args with
    | ok i => exact .inl ⟨i, rfl, perform_ok h s⟩
    | error e =>
      cases e with
      | reserved o =>
        exfalso
        unfold decode at h
        split at h
        · contradiction
        · split at h
          · cases h
          · split at h <;> cases h
      | operandShape o => exact .inr (.inr ⟨by simp [Request.wellTyped, h], by simp [perform, h]⟩)
      | illFormedObject o => exact .inr (.inr ⟨by simp [Request.wellTyped, h], by simp [perform, h]⟩)

/-- A run of `n + 1` steps whose first step answers `t` is a run of `n` steps from `t`. -/
theorem core_run_next {s t : State} (h : step s = .next t) (n : Nat) :
    Host.Core.run Sys2Proof.core (n + 1) s = Host.Core.run Sys2Proof.core n t := by
  have hs : Sys2Proof.core.step s = .next t := h
  simp only [Host.Core.run, hs]

end Sys2Proof.Machine
end

