-- ==== Sys2Proof/Tests/Slice0.lean ====
section
/-! SUPPORT. The model's own tests. Expected results are the spec's test vectors (spec/95_test_vectors.md, by section) and
words written out from spec/30_encoding.md R68 to R70. -/

namespace Sys2Proof.Tests

open Sys2Proof Sys2Proof.Machine

/-- The timestamp value `TS` of 95. -/
def TS : Timestamp := ⟨0x11, 0x22, 0x33, 0x44, 0x55, 0x66, 0x77⟩

/-- The seven bytes of `TS`. -/
def tsBytes : Bytes := [0x11, 0x22, 0x33, 0x44, 0x55, 0x66, 0x77]

/-- Reset with one request issued, bound to host variable 0. -/
def issued (opc : Byte) (args : Operands) : State := State.reset.setPending [⟨0, opc, args⟩]

/-- The state one step answers, if it answers one. -/
def nextOf (x : Out) : Option State :=
  match x with
  | .next s => some s
  | .fault _ => none
  | .refused _ => none

/-- The refusal one step answers, if it answers one. -/
def refusalOf (x : Out) : Option Refusal :=
  match x with
  | .next _ => none
  | .fault _ => none
  | .refused r => some r

/-- The result of one request, issued at reset and performed by one step. -/
def reply (opc : Byte) (args : Operands) : Option Result := (nextOf (step (issued opc args))).bind State.result

/-! ## Well-formedness: an ill-formed term for each check -/

theorem test_cmd_wf : Cmd.wf ⟨.sct, 1, 0, some TS⟩ = true ∧ Cmd.wf ⟨.step, 1, 0, none⟩ = true := by decide

theorem test_illformed_cmd : Cmd.wf ⟨.sct, 1, 0, none⟩ = false ∧ Cmd.wf ⟨.dc, 1, 0, some TS⟩ = false := by decide

theorem test_illformed_encode :
    Instr.wf (.encodeSc ⟨1⟩ [] ⟨.sc, 1, 0, some TS⟩) = false ∧ Instr.wf (.encodeSct ⟨1⟩ [] ⟨.sct, 1, 0, none⟩) = false ∧
    Instr.wf (.encodeDc ⟨1⟩ [] ⟨.dc, 1, 0, some TS⟩) = false ∧ Instr.wf (.encodeDct ⟨1⟩ [] ⟨.dct, 1, 0, none⟩) = false ∧
    Instr.wf (.encodeStep ⟨1⟩ [] ⟨.step, 1, 0, some TS⟩) = false := by decide

theorem test_illformed_get :
    Instr.wf (.getIoa ⟨.sct, 1, 0, none⟩) = false ∧ Instr.wf (.getState ⟨.sct, 1, 0, none⟩) = false ∧
    Instr.wf (.getSelect ⟨.sct, 1, 0, none⟩) = false ∧ Instr.wf (.getQu ⟨.sct, 1, 0, none⟩) = false ∧
    Instr.wf (.getTs ⟨.sct, 1, 0, none⟩) = false := by decide

theorem test_illtyped_is_refused :
    refusalOf (step (issued 0x00 (.qb 0))) = some .illTypedOperands ∧
    refusalOf (step (issued 0x41 (.e ⟨1⟩ [] ⟨.sct, 1, 0, none⟩))) = some .illTypedOperands ∧
    refusalOf (step State.reset) = some .noRequest := by decide

/-! ## Words written out from R68 to R70: `FAMILY SUB`, or `FAMILY 00 K` -/

theorem test_words_qualifier :
    decode 0b00000000 (.q1 true false 5) = .ok (.packSco true false 5) ∧
    decode 0b00000001 (.qb 0x81) = .ok (.unpackSco 0x81) ∧
    decode 0b00000010 (.q2 2 false 9) = .ok (.packDcq 2 false 9) ∧
    decode 0b00000011 (.qb 0x02) = .ok (.unpackDcq 0x02) := by refine ⟨rfl, rfl, rfl, rfl⟩

theorem test_words_build :
    decode 0b00100000 (.bSco 7 true false 1) = .ok (.buildSc 7 true false 1) ∧
    decode 0b00100001 (.bScoTs 7 true false 1 TS) = .ok (.buildSct 7 true false 1 TS) ∧
    decode 0b00100010 (.bDcq 7 2 false 1) = .ok (.buildDc 7 2 false 1) ∧
    decode 0b00100011 (.bDcqTs 7 2 false 1 TS) = .ok (.buildDct 7 2 false 1 TS) ∧
    decode 0b00100100 (.bDcq 7 2 false 1) = .ok (.buildStep 7 2 false 1) := by refine ⟨rfl, rfl, rfl, rfl, rfl⟩

theorem test_words_encode :
    decode 0b01000000 (.e ⟨3⟩ [9] ⟨.sc, 7, 1, none⟩) = .ok (.encodeSc ⟨3⟩ [9] ⟨.sc, 7, 1, none⟩) ∧
    decode 0b01000001 (.e ⟨3⟩ [9] ⟨.sct, 7, 1, some TS⟩) = .ok (.encodeSct ⟨3⟩ [9] ⟨.sct, 7, 1, some TS⟩) ∧
    decode 0b01000010 (.e ⟨3⟩ [9] ⟨.dc, 7, 1, none⟩) = .ok (.encodeDc ⟨3⟩ [9] ⟨.dc, 7, 1, none⟩) ∧
    decode 0b01000011 (.e ⟨3⟩ [9] ⟨.dct, 7, 1, some TS⟩) = .ok (.encodeDct ⟨3⟩ [9] ⟨.dct, 7, 1, some TS⟩) ∧
    decode 0b01000100 (.e ⟨3⟩ [9] ⟨.step, 7, 1, none⟩) = .ok (.encodeStep ⟨3⟩ [9] ⟨.step, 7, 1, none⟩) := by
  refine ⟨rfl, rfl, rfl, rfl, rfl⟩

theorem test_words_decode :
    decode 0b01100000 (.d ⟨3⟩ [9] 1) = .ok (.decodeSc ⟨3⟩ [9] 1) ∧
    decode 0b01100001 (.d ⟨3⟩ [9] 1) = .ok (.decodeSct ⟨3⟩ [9] 1) ∧
    decode 0b01100010 (.d ⟨3⟩ [9] 1) = .ok (.decodeDc ⟨3⟩ [9] 1) ∧
    decode 0b01100011 (.d ⟨3⟩ [9] 1) = .ok (.decodeDct ⟨3⟩ [9] 1) ∧
    decode 0b01100100 (.d ⟨3⟩ [9] 1) = .ok (.decodeStep ⟨3⟩ [9] 1) := by refine ⟨rfl, rfl, rfl, rfl, rfl⟩

theorem test_words_accessors :
    decode 0b10000000 (.g ⟨.sc, 7, 1, none⟩) = .ok (.getIoa ⟨.sc, 7, 1, none⟩) ∧
    decode 0b10000001 (.g ⟨.sc, 7, 1, none⟩) = .ok (.getState ⟨.sc, 7, 1, none⟩) ∧
    decode 0b10000010 (.g ⟨.sc, 7, 1, none⟩) = .ok (.getSelect ⟨.sc, 7, 1, none⟩) ∧
    decode 0b10000011 (.g ⟨.sc, 7, 1, none⟩) = .ok (.getQu ⟨.sc, 7, 1, none⟩) ∧
    decode 0b10000100 (.g ⟨.sc, 7, 1, none⟩) = .ok (.getTs ⟨.sc, 7, 1, none⟩) := by refine ⟨rfl, rfl, rfl, rfl, rfl⟩

theorem test_words_timestamp :
    decode 0b10100000 (.ta [9] TS) = .ok (.appendTs [9] TS) ∧
    decode 0b10100001 (.tr [9] 1) = .ok (.readTs [9] 1) := by refine ⟨rfl, rfl⟩

/-- 95 section 2.10. -/
theorem test_words_reserved :
    decodeOpc 0x04 = none ∧ decodeOpc 0x25 = none ∧ decodeOpc 0x45 = none ∧ decodeOpc 0x68 = none ∧
    decodeOpc 0x85 = none ∧ decodeOpc 0xA2 = none ∧ decodeOpc 0xC0 = none ∧ decodeOpc 0xFF = none := by decide

/-- The host's reading of a table row, and its fetch word: the row's instruction with zero operands (log 10). -/
theorem test_table_word :
    decodeTableWord 8 0x64 = some (.decodeStep ⟨0⟩ [] 0) ∧ decodeTableWord 8 0x25 = none ∧
    (State.reset.withFetchWord 8 0x81).pending = [⟨0, 0x81, .g ⟨.sc, 0, 0, none⟩⟩] ∧
    (nextOf (step (State.reset.withFetchWord 8 0x81))).bind State.result = some (.ok (.bool false)) := by decide

/-! ## 2.1 to 2.4: the qualifier codec -/

theorem test_packSco_all_fields : reply 0x00 (.q1 true true 31) = some (.ok (.byte 0xFD)) := by decide
theorem test_packSco_negative_qu : reply 0x00 (.q1 false false (-1)) = some (.ok (.byte 0x7C)) := by decide
theorem test_unpackSco_ignores_bit1 : reply 0x01 (.qb 0x03) = some (.ok (.scoFields true 0 false)) := by decide
theorem test_unpackSco_fe : reply 0x01 (.qb 0xFE) = some (.ok (.scoFields false 31 true)) := by decide
theorem test_packDcq_masks : reply 0x02 (.q2 5 true 33) = some (.ok (.byte 0x85)) := by decide
theorem test_packDcq_negative_state : reply 0x02 (.q2 (-1) false 0) = some (.ok (.byte 0x03)) := by decide
theorem test_unpackDcq_8d : reply 0x03 (.qb 0x8D) = some (.ok (.dcqFields 1 3 true)) := by decide
theorem test_unpackDcq_ff : reply 0x03 (.qb 0xFF) = some (.ok (.dcqFields 3 31 true)) := by decide

/-! ## 2.5: BUILD -/

theorem test_buildSc : reply 0x20 (.bSco 0x1234 true false 0) = some (.ok (.cmd ⟨.sc, 4660, 0x01, none⟩)) := by decide
theorem test_buildSct : reply 0x21 (.bScoTs 255 true true 31 TS) = some (.ok (.cmd ⟨.sct, 255, 0xFD, some TS⟩)) := by
  decide
theorem test_buildDc : reply 0x22 (.bDcq 0x0102 3 false 31) = some (.ok (.cmd ⟨.dc, 258, 0x7F, none⟩)) := by decide
theorem test_buildDct : reply 0x23 (.bDcqTs 0x012345 1 true 3 TS) = some (.ok (.cmd ⟨.dct, 74565, 0x8D, some TS⟩)) := by
  decide
theorem test_buildStep : reply 0x24 (.bDcq 5 6 false 0) = some (.ok (.cmd ⟨.step, 5, 0x02, none⟩)) := by decide

/-! ## 2.6: ENCODE -/

theorem test_encodeSc_keeps_frame :
    reply 0x40 (.e ⟨1⟩ [0xAA, 0xBB] ⟨.sc, 7, 0x80, none⟩) = some (.ok (.frame [0xAA, 0xBB, 0x07, 0x80])) := by decide
theorem test_encodeSc_config_first :
    reply 0x40 (.e ⟨0⟩ [] ⟨.dc, 1, 0x02, none⟩) = some (.fault (.badConfig 0)) := by decide
theorem test_encodeSct :
    reply 0x41 (.e ⟨3⟩ [] ⟨.sct, 100, 0x04, some TS⟩) =
      some (.ok (.frame [0x64, 0x00, 0x00, 0x04, 0x11, 0x22, 0x33, 0x44, 0x55, 0x66, 0x77])) := by decide
theorem test_encodeDc : reply 0x42 (.e ⟨2⟩ [] ⟨.dc, 258, 0x7F, none⟩) = some (.ok (.frame [0x02, 0x01, 0x7F])) := by
  decide
theorem test_encodeDc_of_step :
    reply 0x42 (.e ⟨3⟩ [] ⟨.step, 5, 0x81, none⟩) = some (.fault (.operandMismatch .step)) := by decide
theorem test_encodeDct :
    reply 0x43 (.e ⟨2⟩ [0x00] ⟨.dct, 48879, 0x02, some .zero⟩) =
      some (.ok (.frame [0x00, 0xEF, 0xBE, 0x02, 0x00, 0x00, 0x00, 0x00, 0x00, 0x00, 0x00])) := by decide
theorem test_encodeStep : reply 0x44 (.e ⟨2⟩ [] ⟨.step, 5, 0x81, none⟩) = some (.ok (.frame [0x05, 0x00, 0x81])) := by
  decide

/-! ## 2.7: DECODE -/

theorem test_decodeSc_offset :
    reply 0x60 (.d ⟨3⟩ [0xFF, 0x64, 0x00, 0x00, 0x81, 0x99] 1) = some (.ok (.decoded ⟨.sc, 100, 0x81, none⟩ 5)) := by
  decide
theorem test_decodeSc_short : reply 0x60 (.d ⟨1⟩ [0x07, 0x02] 1) = some (.fault (.malformedInput 1 2 2)) := by decide
theorem test_decodeSct_exact_fit :
    reply 0x61 (.d ⟨1⟩ ([0x01, 0x81] ++ tsBytes) 0) = some (.ok (.decoded ⟨.sct, 1, 0x81, some TS⟩ 9)) := by decide
theorem test_decodeSct_one_short :
    reply 0x61 (.d ⟨3⟩ [0x64, 0x00, 0x00, 0x04, 0x11, 0x22, 0x33, 0x44, 0x55, 0x66] 0) =
      some (.fault (.malformedInput 0 11 10)) := by decide
theorem test_decodeDc_reserved_state :
    reply 0x62 (.d ⟨1⟩ [0x01, 0x03] 0) = some (.ok (.decoded ⟨.dc, 1, 0x03, none⟩ 2)) := by decide
theorem test_decodeDct :
    reply 0x63 (.d ⟨3⟩ ([0xFF, 0x45, 0x23, 0x01, 0x8D] ++ tsBytes ++ [0x99]) 1) =
      some (.ok (.decoded ⟨.dct, 74565, 0x8D, some TS⟩ 12)) := by decide
theorem test_decodeStep :
    reply 0x64 (.d ⟨2⟩ [0x05, 0x00, 0x81] 0) = some (.ok (.decoded ⟨.step, 5, 0x81, none⟩ 3)) := by decide

/-! ## 2.8: accessors -/

theorem test_getIoa : reply 0x80 (.g ⟨.sc, 100, 0x81, none⟩) = some (.ok (.nat 100)) := by decide
theorem test_getState_sco : reply 0x81 (.g ⟨.sc, 7, 0x02, none⟩) = some (.ok (.bool false)) := by decide
theorem test_getState_dcq : reply 0x81 (.g ⟨.dc, 1, 0x03, none⟩) = some (.ok (.nat 3)) := by decide
theorem test_getSelect : reply 0x82 (.g ⟨.dc, 1, 0x02, none⟩) = some (.ok (.bool false)) := by decide
theorem test_getQu : reply 0x83 (.g ⟨.dct, 74565, 0x8D, some TS⟩) = some (.ok (.nat 3)) := by decide
theorem test_getTs : reply 0x84 (.g ⟨.sct, 100, 0x04, some TS⟩) = some (.ok (.timestamp TS)) := by decide
theorem test_getTs_mismatch : reply 0x84 (.g ⟨.step, 5, 0x81, none⟩) = some (.fault (.operandMismatch .step)) := by
  decide

/-! ## 2.9: the timestamp field -/

theorem test_appendTs :
    reply 0xA0 (.ta [0x64, 0x00, 0x00, 0x04] TS) =
      some (.ok (.frame [0x64, 0x00, 0x00, 0x04, 0x11, 0x22, 0x33, 0x44, 0x55, 0x66, 0x77])) := by decide
theorem test_readTs : reply 0xA1 (.tr ([0x64, 0x00, 0x00, 0x04] ++ tsBytes) 4) = some (.ok (.timestamp TS)) := by decide
theorem test_readTs_short :
    reply 0xA1 (.tr ([0x64, 0x00, 0x00, 0x04] ++ tsBytes) 5) = some (.fault (.malformedInput 5 7 11)) := by decide

/-- R8: with another `TS_CODEC` the seven wire bytes are that codec's, on APPEND_TS and in ENCODE.SCT. -/
theorem test_timestamp_codec_is_a_parameter :
    (nextOf (exec (.appendTs [9] TS) { State.reset with tsCodec := .collaborator })).bind State.result =
      some (.ok (.frame (9 :: (Config.tsWire TS).bytes))) ∧
    (nextOf (exec (.encodeSct ⟨1⟩ [] ⟨.sct, 7, 1, some TS⟩) { State.reset with tsCodec := .collaborator })).bind
        State.result = some (.ok (.frame (7 :: 1 :: (Config.tsWire TS).bytes))) := ⟨rfl, rfl⟩

/-! ## Steps (P3) -/

theorem test_reserved_opc : reply 0x25 (.qb 0) = some (.fault (.illegalRequest 0x25)) := by decide
theorem test_fault_leaves_variable_unwritten :
    (nextOf (step (issued 0x63 (.d ⟨2⟩ [0x05, 0x00, 0x81] 0)))).map (fun s => (HostVars.get s.vars 0, s.status)) =
      some (none, some 1) := by decide
theorem test_ok_binds_variable :
    (nextOf (step (issued 0x00 (.q1 false false 35)))).map (fun s => (HostVars.get s.vars 0, s.status)) =
      some (some (.byte 0x0C), some 0) := by decide

/-! ## Witnesses: states and operands that meet the hypotheses of the statements -/

/-- A state in the middle of a run. -/
def midRun : State where
  pending := [⟨1, 0x00, .q1 true true 0⟩, ⟨2, 0x60, .d ⟨1⟩ [7, 0x80, 8, 2] 0⟩, ⟨3, 0xFF, .qb 0⟩]
  vars := [(0, .byte 0x81), (4, .cmd ⟨.dct, 1, 2, some TS⟩)]
  result := some (.ok (.byte 0x81))
  ioaCodec := .lsbFirst
  tsCodec := .identity

theorem witness_Inv : Inv midRun := ⟨by decide, by decide, by decide, by
  intro r h
  cases h
  rfl⟩

/-- NoRequestIsStuck, EveryRunEnds, StepKeepsWellTyped, StepFrameAndBinding (its first request ends `ok`),
StepRunsTheDecodedRequest. -/
theorem witness_pending : midRun.pending ≠ [] ∧ (∃ req rest, midRun.pending = req :: rest) ∧ decode 0x00 (.q1 true true 0) = .ok (.packSco true true 0) ∧
    (nextOf (step midRun)).isSome = true := ⟨by decide, ⟨_, _, rfl⟩, rfl, by decide⟩

/-- IndependentRequestsCommute. -/
theorem witness_independent_requests : Inv midRun ∧ ∃ r1 r2 rest, midRun.pending = r1 :: r2 :: rest ∧ r1.dst ≠ r2.dst :=
  ⟨witness_Inv, _, _, _, rfl, by decide⟩

/-- ReservedOpcodesAreIllegal, FaultPriorityOrder (first clause), StepFrameAndBinding with a fault, and
StepRunsTheDecodedRequest with a fault. -/
theorem witness_reserved_request : (issued 0xFF (.qb 0)).pending = [⟨0, 0xFF, .qb 0⟩] ∧ decodeOpc 0xFF = none ∧
    (nextOf (exec (.getTs ⟨.sc, 1, 0, none⟩) State.reset)).bind State.result =
      some (.fault (.operandMismatch .sc)) := by decide

/-- StepRefusesOnlyThese: an ill-typed request is pending. -/
theorem witness_illtyped : Request.wellTyped ⟨0, 0x00, .qb 0⟩ = false ∧ (issued 0x00 (.qb 0)).pending ≠ [] := by decide

/-- NothingSurvivesARequest: two different states with the same codecs; a request outside ENCODE and DECODE, and one with
no timestamp on the wire. -/
theorem witness_same_codec : midRun ≠ State.reset ∧ midRun.ioaCodec = State.reset.ioaCodec ∧
    midRun.tsCodec = State.reset.tsCodec ∧
    (∀ k, (Instr.appendTs [] TS).op ≠ .encode k ∧ (Instr.appendTs [] TS).op ≠ .decode k) ∧
    (∀ k, k.hasTs = true → (Instr.encodeSc ⟨1⟩ [] ⟨.sc, 7, 1, none⟩).op ≠ .encode k) := by
  refine ⟨by decide, rfl, rfl, ?_, ?_⟩ <;> intro k <;> cases k <;> decide

/-- ScoPackUnpackLaws and DcqPackUnpackLaws: the request answers a byte; the ranges' ends. -/
theorem witness_pack_answers :
    (nextOf (exec (.packSco true true 35) midRun)).bind State.result = some (.ok (.byte 0x8D)) ∧
    (nextOf (exec (.packDcq 6 true (-1)) midRun)).bind State.result = some (.ok (.byte 0xFE)) ∧
    packSco true true 31 = packSco true true 31 ∧ (0 : Int) ≤ 31 ∧ (31 : Int) < 32 ∧ (0 : Int) ≤ 3 ∧ (3 : Int) < 4 := by
  decide

/-- QualifierMaskFormsAgree: the narrowest machine width. -/
theorem witness_mask_width : 5 ≤ 5 := by decide

/-- AccessorsReadBackBuild: each BUILD answers an object; both kinds with a timestamp. -/
theorem witness_build_answers :
    (nextOf (exec (.buildSct 9 true false 35 TS) midRun)).bind State.result =
      some (.ok (.cmd ⟨.sct, 9, 0x0D, some TS⟩)) ∧
    (nextOf (exec (.buildDct 9 6 false 35 TS) midRun)).bind State.result =
      some (.ok (.cmd ⟨.dct, 9, 0x0E, some TS⟩)) := by decide

/-- EncodeWithoutTimestamp, EncodeWithTimestamp, WrongObjectIsMismatch: each clause, at widths 1 and 3; an illegal width at
both ends (0 and 4: IllegalWidthIsBadConfig). -/
theorem witness_encode_clauses :
    reply 0x40 (.e ⟨1⟩ [] ⟨.sc, 256, 1, none⟩) = some (.ok (.frame [0, 1])) ∧
    reply 0x44 (.e ⟨3⟩ [] ⟨.dc, 1, 1, none⟩) = some (.fault (.operandMismatch .dc)) ∧
    reply 0x41 (.e ⟨1⟩ [] ⟨.sct, 1, 1, some TS⟩) = some (.ok (.frame ([1, 1] ++ tsBytes))) ∧
    reply 0x43 (.e ⟨3⟩ [] ⟨.sct, 1, 1, some TS⟩) = some (.fault (.operandMismatch .sct)) ∧
    reply 0x41 (.e ⟨4⟩ [] ⟨.sct, 1, 1, some TS⟩) = some (.fault (.badConfig 4)) ∧
    reply 0x63 (.d ⟨0⟩ [] 0) = some (.fault (.badConfig 0)) := by decide

/-- DecodeWithoutTimestamp, DecodeWithTimestamp, ShortBufferIsMalformed, ReadTsBytes: the exact fit and one byte less. -/
theorem witness_decode_clauses :
    reply 0x64 (.d ⟨1⟩ [9, 1, 2] 1) = some (.ok (.decoded ⟨.step, 1, 2, none⟩ 3)) ∧
    reply 0x64 (.d ⟨1⟩ [9, 1] 1) = some (.fault (.malformedInput 1 2 2)) ∧
    reply 0x61 (.d ⟨3⟩ ([1, 0, 0, 2] ++ tsBytes) 0) = some (.ok (.decoded ⟨.sct, 1, 2, some TS⟩ 11)) ∧
    reply 0x61 (.d ⟨3⟩ ([1, 0, 0, 2] ++ tsBytes) 1) = some (.fault (.malformedInput 1 11 11)) ∧
    reply 0xA1 (.tr tsBytes 0) = some (.ok (.timestamp TS)) ∧
    reply 0xA1 (.tr tsBytes 1) = some (.fault (.malformedInput 1 7 7)) := by decide

/-- ReadFootprintOnly: different buffers that agree on the footprint. -/
theorem witness_footprint : ([9, 1, 2] : Bytes) ≠ [8, 1, 2, 3] ∧ 1 + (1 + 1) ≤ ([9, 1, 2] : Bytes).length ∧
    (∀ i, 1 ≤ i → i < 1 + (1 + 1) → ([8, 1, 2, 3] : Bytes)[i]? = ([9, 1, 2] : Bytes)[i]?) ∧
    (∀ i, 0 ≤ i → i < 0 + 7 → (tsBytes ++ [5])[i]? = tsBytes[i]?) := by
  refine ⟨by decide, by decide, ?_, ?_⟩
  · intro i h1 h2
    have : i = 1 ∨ i = 2 := by omega
    rcases this with rfl | rfl <;> rfl
  · intro i _ h2
    exact List.getElem?_append_left h2

/-- WriteFootprintExact, StampedEncodeIsPlainThenAppend, DecodeUndoesEncode: an ENCODE that answers a frame, of a
well-formed object, appended to a frame that is not empty. -/
theorem witness_encode_answers :
    (nextOf (exec (.encodeSc ⟨2⟩ [7] ⟨.sc, 515, 0x88, none⟩) midRun)).bind State.result =
      some (.ok (.frame [7, 3, 2, 0x88])) ∧ Cmd.wf ⟨.sc, 515, 0x88, none⟩ = true ∧
    (nextOf (exec (.encodeDc ⟨2⟩ [7] ⟨.dc, 515, 0x88, none⟩) midRun)).bind State.result =
      some (.ok (.frame [7, 3, 2, 0x88])) := by decide

/-- EncodeUndoesDecode: a codec whose encoder undoes its decoder on segments of one byte, and a DECODE that answers an
object; StepSharesTheDoubleLayout: a DECODE.DC that answers one. -/
theorem witness_decode_answers :
    (∀ b : Byte, ioaEncode .lsbFirst (ioaDecode .lsbFirst [b]) 1 = [b]) ∧
    (nextOf (exec (.decodeDc ⟨1⟩ [7, 0x80] 0) midRun)).bind State.result =
      some (.ok (.decoded ⟨.dc, 7, 0x80, none⟩ 2)) := by
  refine ⟨?_, by decide⟩
  intro b
  simp [ioaEncode, ioaDecode, lsbValue, List.range_succ]

/-- ReadTsAfterAppendTs and AppendTsAfterReadTs: the first request answers; under the identity codec, the hypothesis of
the clauses that give the bytes in index order (AppendTsBytes, ReadTsBytes, EncodeWithTimestamp, DecodeWithTimestamp). -/
theorem witness_append_answers :
    (nextOf (exec (.appendTs [7] TS) midRun)).bind State.result = some (.ok (.frame ([7] ++ tsBytes))) ∧
    (nextOf (exec (.readTs ([7] ++ tsBytes) 1) midRun)).bind State.result = some (.ok (.timestamp TS)) ∧
    midRun.tsCodec = .identity := by decide

/-- GetStateByLayout and GetTsOrMismatch: an object of each layout, with and without a timestamp. -/
theorem witness_get_clauses :
    Kind.qk .sct = .sco ∧ Kind.qk .step = .dcq ∧ Cmd.ts ⟨.dct, 1, 2, some TS⟩ = some TS ∧ Kind.hasTs .dc = false := by
  decide

/-- FaultTableByRequest and WhatNeverFaults: a request with a fault, at another qualifier byte and in another buffer of the
same length; and a request that cannot fault. -/
theorem witness_fault_clauses :
    (nextOf (exec (.encodeSc ⟨1⟩ [] ⟨.dc, 1, 0, none⟩) midRun)).bind State.result =
      some (.fault (.operandMismatch .dc)) ∧
    (nextOf (exec (.decodeSc ⟨3⟩ [1, 2] 0) midRun)).bind State.result = some (.fault (.malformedInput 0 4 2)) ∧
    (nextOf (exec (.getTs ⟨.dc, 1, 3, none⟩) midRun)).bind State.result = some (.fault (.operandMismatch .dc)) ∧
    (nextOf (exec (.readTs [1, 2] 0) midRun)).bind State.result = some (.fault (.malformedInput 0 7 2)) ∧
    ([3, 4] : Bytes).length = ([1, 2] : Bytes).length ∧ (Instr.getQu ⟨.dc, 1, 0, none⟩).op = .getQu := by decide

/-- DecodeOfEncodeIsIdentity, EncodeOfDecodeIsIdentity, OpcodeMapWords, OpcodeFieldsByFamily: a well-formed object, a
well-formed request with operands, and the pair that spells it. -/
theorem witness_round_trip : Cmd.wf ⟨.dct, 7, 0x8D, some TS⟩ = true ∧
    Instr.wf (.encodeDct ⟨3⟩ [1] ⟨.dct, 7, 0x8D, some TS⟩) = true ∧
    decode 0x43 (.e ⟨3⟩ [1] ⟨.dct, 7, 0x8D, some TS⟩) = .ok (.encodeDct ⟨3⟩ [1] ⟨.dct, 7, 0x8D, some TS⟩) ∧
    (Instr.encodeDct ⟨3⟩ [1] ⟨.dct, 7, 0x8D, some TS⟩).op = .encode .dct := ⟨rfl, rfl, rfl, rfl⟩

/-- DefaultIoaCodecLaws: an index inside a segment. -/
theorem witness_segment_index : 2 < 3 ∧ (ioaEncode .lsbFirst 74565 3)[2]? = some 0x01 := by decide

end Sys2Proof.Tests
end

section
/-! PROOFS. The family of 10_state.md: which requests read a codec parameter (R7, R8), what a request that ends leaves
unchanged (R20, R30, R52), and the binding of its result (R73). -/

namespace Sys2Proof.Machine

/-! ## The operation of the ENCODE and DECODE requests -/

@[simp] theorem op_encodeOf (k : Kind) (cfg : Cfg) (f : Bytes) (o : Cmd) : (Instr.encodeOf k cfg f o).op = .encode k := by
  cases k <;> rfl

@[simp] theorem op_decodeOf (k : Kind) (cfg : Cfg) (buf : Bytes) (off : Nat) :
    (Instr.decodeOf k cfg buf off).op = .decode k := by
  cases k <;> rfl

/-! ## What a request reads of the state -/

/-- GET_TS has one result in all states. -/
theorem exec_getTs_result (o : Cmd) : ∃ r, ∀ s, exec (.getTs o) s = .next (s.setResult r) := by
  by_cases hk : o.kind.hasTs = true
  · cases ht : o.ts with
    | some t => exact ⟨_, exec_getTs_some hk ht⟩
    | none => exact ⟨_, exec_getTs_mismatch (.inr ht)⟩
  · exact ⟨_, exec_getTs_mismatch (.inl (by simpa using hk))⟩

/-- A request reads nothing of the state (its result is one and the same in all states), or it is one of the
operations that move bytes through a codec: ENCODE, DECODE, APPEND_TS, READ_TS. -/
theorem exec_cases (i : Instr) :
    (∃ r, ∀ s, exec i s = .next (s.setResult r)) ∨
    (∃ k cfg f o, i = .encodeOf k cfg f o) ∨
    (∃ k cfg buf off, i = .decodeOf k cfg buf off) ∨
    (∃ f ts, i = .appendTs f ts) ∨
    (∃ buf pos, i = .readTs buf pos) := by
  cases i with
  | packSco | unpackSco | packDcq | unpackDcq => exact .inl ⟨_, fun _ => rfl⟩
  | buildSc | buildSct | buildDc | buildDct | buildStep => exact .inl ⟨_, fun _ => rfl⟩
  | getIoa | getSelect | getQu => exact .inl ⟨_, fun _ => rfl⟩
  | getState o => exact .inl ⟨_, exec_getState o⟩
  | getTs o => exact .inl (exec_getTs_result o)
  | encodeSc cfg f o => exact .inr (.inl ⟨.sc, cfg, f, o, rfl⟩)
  | encodeSct cfg f o => exact .inr (.inl ⟨.sct, cfg, f, o, rfl⟩)
  | encodeDc cfg f o => exact .inr (.inl ⟨.dc, cfg, f, o, rfl⟩)
  | encodeDct cfg f o => exact .inr (.inl ⟨.dct, cfg, f, o, rfl⟩)
  | encodeStep cfg f o => exact .inr (.inl ⟨.step, cfg, f, o, rfl⟩)
  | decodeSc cfg buf off => exact .inr (.inr (.inl ⟨.sc, cfg, buf, off, rfl⟩))
  | decodeSct cfg buf off => exact .inr (.inr (.inl ⟨.sct, cfg, buf, off, rfl⟩))
  | decodeDc cfg buf off => exact .inr (.inr (.inl ⟨.dc, cfg, buf, off, rfl⟩))
  | decodeDct cfg buf off => exact .inr (.inr (.inl ⟨.dct, cfg, buf, off, rfl⟩))
  | decodeStep cfg buf off => exact .inr (.inr (.inl ⟨.step, cfg, buf, off, rfl⟩))
  | appendTs f ts => exact .inr (.inr (.inr (.inl ⟨f, ts, rfl⟩)))
  | readTs buf pos => exact .inr (.inr (.inr (.inr ⟨buf, pos, rfl⟩)))

/-- Every request answers a next state that differs in the result alone. -/
theorem exec_next (i : Instr) (s : State) : ∃ r, exec i s = .next (s.setResult r) := by
  obtain ⟨r, h⟩ | ⟨k, cfg, f, o, rfl⟩ | ⟨k, cfg, buf, off, rfl⟩ | ⟨f, ts, rfl⟩ | ⟨buf, pos, rfl⟩ := exec_cases i
  · exact ⟨r, h s⟩
  · rw [exec_encodeOf]; exact deliver_next _ _ s
  · rw [exec_decodeOf]; exact deliver_next _ _ s
  · exact ⟨_, rfl⟩
  · exact deliver_next _ _ s

/-! ## Nothing survives a request (R20) -/

/-- One computation delivered in two states, from equal inputs, gives both the same result. -/
theorem deliver_same_result {α : Type} (out : α → Value) {x y : Except Cause α} (h : x = y) (s s' : State) :
    ∃ r, deliver out x s = .next (s.setResult r) ∧ deliver out y s' = .next (s'.setResult r) := by
  subst h
  cases x with
  | ok a => exact ⟨_, rfl, rfl⟩
  | error c => exact ⟨_, rfl, rfl⟩

/-- EncodeK of a kind without a timestamp does not read the timestamp codec. -/
theorem encodeK_plain_tsCodec {k : Kind} (hk : k.hasTs = false) (C : IoaCodec) (T T' : TsCodec) (cfg : Cfg) (f : Bytes)
    (o : Cmd) : encodeK C T k cfg f o = encodeK C T' k cfg f o := by
  simp [encodeK, hk]

/-- DecodeK of a kind without a timestamp does not read the timestamp codec. -/
theorem decodeK_plain_tsCodec {k : Kind} (hk : k.hasTs = false) (C : IoaCodec) (T T' : TsCodec) (cfg : Cfg)
    (buf : Bytes) (off : Nat) : decodeK C T k cfg buf off = decodeK C T' k cfg buf off := by
  simp [decodeK, hk]

/-- Settles O45: by what a request reads (`exec_cases`), which is at most the codecs that the hypotheses equate. -/
theorem nothingSurvivesARequest : Obligations.NothingSurvivesARequest := by
  intro i s s' hC hT
  obtain ⟨r, h⟩ | ⟨k, cfg, f, o, rfl⟩ | ⟨k, cfg, buf, off, rfl⟩ | ⟨f, ts, rfl⟩ | ⟨buf, pos, rfl⟩ := exec_cases i
  · exact ⟨r, h s, h s'⟩
  · have hC : s.ioaCodec = s'.ioaCodec := hC.resolve_right fun h => (h k).1 (op_encodeOf ..)
    rw [exec_encodeOf, exec_encodeOf]
    refine deliver_same_result .frame ?_ s s'
    rw [hC]
    cases hk : k.hasTs with
    | false => exact encodeK_plain_tsCodec hk ..
    | true => rw [hT.resolve_right fun ⟨_, _, h⟩ => (h k hk).1 (op_encodeOf ..)]
  · have hC : s.ioaCodec = s'.ioaCodec := hC.resolve_right fun h => (h k).2 (op_decodeOf ..)
    rw [exec_decodeOf, exec_decodeOf]
    refine deliver_same_result decodedValue ?_ s s'
    rw [hC]
    cases hk : k.hasTs with
    | false => exact decodeK_plain_tsCodec hk ..
    | true => rw [hT.resolve_right fun ⟨_, _, h⟩ => (h k hk).2 (op_decodeOf ..)]
  · have hT : s.tsCodec = s'.tsCodec := hT.resolve_right fun ⟨h, _⟩ => h rfl
    exact ⟨.ok (.frame (appendTs s.tsCodec f ts)), rfl, by rw [hT]; rfl⟩
  · have hT : s.tsCodec = s'.tsCodec := hT.resolve_right fun ⟨_, h, _⟩ => h rfl
    exact deliver_same_result .timestamp (congrArg (readTs · buf pos) hT) s s'

/-! ## The frame of a step and the binding of its result (R52, R73, R169) -/

/-- A step that answers has taken the request off, given it a result, and bound that result to the request's variable;
a reserved `OPC` is among these, for its fault binds nothing. -/
theorem step_next_cases {s t : State} {r : Request} {rest : List Request} (hp : s.pending = r :: rest)
    (h : step s = .next t) : ∃ x, t = ((s.setPending rest).setResult x).bindResult r.dst := by
  rw [step_cons hp] at h
  obtain ⟨i, -, hi⟩ | ⟨-, hi⟩ | ⟨-, hi⟩ := perform_cases exec r (s.setPending rest)
  · obtain ⟨x, hx⟩ := exec_next i (s.setPending rest)
    rw [hi, hx, complete_next] at h
    exact ⟨x, (Host.Outcome.next.inj h).symm⟩
  · rw [hi] at h
    exact ⟨.fault (.illegalRequest r.opc), (Host.Outcome.next.inj h).symm⟩
  · rw [hi] at h
    cases h

/-- Settles O46: the step's result is an `ok` value, which alone is written, to the request's own variable, or a fault,
which writes none. -/
theorem stepFrameAndBinding : Obligations.StepFrameAndBinding := by
  intro s t r rest hp h
  obtain ⟨x, rfl⟩ := step_next_cases hp h
  cases x with
  | ok v =>
    rw [State.bindResult_ok]
    exact ⟨rfl, rfl, rfl, fun n hn => HostVars.get_set_other s.vars v hn,
      .inl ⟨v, rfl, HostVars.get_set_same s.vars r.dst v⟩⟩
  | fault c =>
    rw [State.bindResult_fault]
    exact ⟨rfl, rfl, rfl, fun _ _ => rfl, .inr ⟨c, rfl, rfl⟩⟩

end Sys2Proof.Machine
end

section
/-! PROOFS. The family of 20_memory.md: the bytes an ENCODE writes (R48, R50) and a DECODE reads (R49), and the order in
which the host's requests are performed (R57). -/

namespace Sys2Proof.Machine

/-! ## The wire length (R48) -/

/-- Settles O23: the two widths of R6 are these numbers. -/
theorem wireLengthByKind : Obligations.WireLengthByKind := fun _ _ => rfl

theorem hasTs_iff (k : Kind) : k.hasTs = true ↔ k = .sct ∨ k = .dct := by
  cases k <;> decide

/-- The wire length, with the kinds that carry a timestamp written out. -/
theorem wireLen_eq (k : Kind) (A : Nat) : wireLen k A = A + 1 + (if k = .sct ∨ k = .dct then 7 else 0) := by
  simp only [wireLengthByKind k A, hasTs_iff]

/-! ## The write footprint (R50) -/

/-- A delivered computation whose request ends `ok` succeeded, with that value. -/
theorem deliver_eq_ok {α : Type} {out : α → Value} {x : Except Cause α} {s t : State} {v : Value}
    (h : deliver out x s = .next t) (ht : t.result = some (.ok v)) : ∃ a, x = .ok a ∧ out a = v := by
  cases x with
  | ok a =>
    obtain rfl := Host.Outcome.next.inj h
    exact ⟨a, rfl, by simpa using ht⟩
  | error c =>
    obtain rfl := Host.Outcome.next.inj h
    simp at ht

/-- A successful EncodeK appends exactly the wire length to its frame. -/
theorem encodeK_appends {C : IoaCodec} {T : TsCodec} {k : Kind} {cfg : Cfg} {f w : Bytes} {o : Cmd}
    (h : encodeK C T k cfg f o = .ok w) : ∃ xs, w = f ++ xs ∧ xs.length = wireLen k cfg.ioaWidth := by
  obtain ⟨-, -, ⟨hk, rfl⟩ | ⟨t, hk, -, rfl⟩⟩ := encodeK_ok h
  · exact ⟨ioaEncode C o.ioa cfg.ioaWidth ++ [o.q], by simp, by simp [wireLen_plain _ hk]⟩
  · exact ⟨ioaEncode C o.ioa cfg.ioaWidth ++ [o.q] ++ tsEncode T t, by simp, by simp [wireLen_stamped _ hk]⟩

/-- Settles O14: the segments that EncodeK and APPEND_TS append have the lengths of R48 and R6. -/
theorem writeFootprintExact : Obligations.WriteFootprintExact := by
  refine ⟨fun k cfg f f' o s t h ht => ?_, fun f ts s => ⟨tsEncode s.tsCodec ts, tsEncode_length _ ts, rfl⟩⟩
  rw [exec_encodeOf] at h
  obtain ⟨w, hw, hf⟩ := deliver_eq_ok h ht
  obtain rfl := Value.frame.inj hf
  rw [← wireLen_eq]
  exact encodeK_appends hw

/-! ## The read footprint (R49) -/

/-- Two buffers have the same bytes at the `n` indices from `lo` on. -/
def AgreeOn (buf' buf : Bytes) (lo n : Nat) : Prop := ∀ i, lo ≤ i → i < lo + n → buf'[i]? = buf[i]?

namespace AgreeOn

variable {buf' buf : Bytes} {lo n : Nat}

/-- Buffers that agree on a footprint agree on each segment within it. -/
theorem segment (h : AgreeOn buf' buf lo n) {i m : Nat} (hi : lo ≤ i) (hm : i + m ≤ lo + n) : AgreeOn buf' buf i m :=
  fun j hj hjm => h j (by omega) (by omega)

/-- A footprint that is not empty and lies in one buffer lies in the other. -/
theorem le_length (h : AgreeOn buf' buf lo n) (hn : 0 < n) (hb : lo + n ≤ buf.length) : lo + n ≤ buf'.length := by
  have hlast : buf'[lo + n - 1]? = some buf[lo + n - 1] := by
    rw [h _ (by omega) (by omega), List.getElem?_eq_getElem]
  obtain ⟨hlt, -⟩ := List.getElem?_eq_some_iff.1 hlast
  omega

theorem bufRead_eq (h : AgreeOn buf' buf lo n) {i : Nat} (hi : lo ≤ i) (hn : i < lo + n) :
    bufRead buf' i = bufRead buf i := by
  rw [bufRead, bufRead, List.getD_eq_getElem?_getD, List.getD_eq_getElem?_getD, h i hi hn]

theorem take_drop_eq (h : AgreeOn buf' buf lo n) : (buf'.drop lo).take n = (buf.drop lo).take n := by
  apply List.ext_getElem?
  intro j
  simp only [List.getElem?_take, List.getElem?_drop]
  split
  · exact h _ (by omega) (by omega)
  · rfl

/-- READ_TS of seven bytes that a buffer has depends on these alone. -/
theorem readTs_eq (T : TsCodec) {pos : Nat} (h : AgreeOn buf' buf pos 7) (hb : pos + 7 ≤ buf.length) :
    readTs T buf' pos = readTs T buf pos := by
  obtain ⟨w', hw', hr'⟩ := readTs_ok (T := T) (h.le_length (by omega) hb)
  obtain ⟨w, hw, hr⟩ := readTs_ok (T := T) hb
  have hww : w' = w := Timestamp.bytes_inj (by rw [hw', hw, h.take_drop_eq])
  rw [hr', hr, hww]

/-- DecodeK of a wire length of bytes that a buffer has depends on these alone; with an illegal width it depends on
none. -/
theorem decodeK_eq (C : IoaCodec) (T : TsCodec) {k : Kind} {cfg : Cfg} {off : Nat}
    (h : AgreeOn buf' buf off (wireLen k cfg.ioaWidth)) (hb : off + wireLen k cfg.ioaWidth ≤ buf.length) :
    decodeK C T k cfg buf' off = decodeK C T k cfg buf off := by
  by_cases hl : legalWidth cfg.ioaWidth
  case neg => rw [decodeK_badConfig hl, decodeK_badConfig hl]
  cases hk : k.hasTs with
  | false =>
    rw [wireLen_plain _ hk] at h hb
    rw [decodeK_plain hl hk (h.le_length (by omega) hb), decodeK_plain hl hk hb,
      (h.segment le_rfl (by omega)).take_drop_eq, h.bufRead_eq (by omega) (by omega)]
  | true =>
    rw [wireLen_stamped _ hk] at h hb
    obtain ⟨w', hw', hd'⟩ := decodeK_stamped (C := C) (T := T) hl hk (h.le_length (by omega) hb)
    obtain ⟨w, hw, hd⟩ := decodeK_stamped (C := C) (T := T) hl hk hb
    have hww : w' = w :=
      Timestamp.bytes_inj (by rw [hw', hw, (h.segment (by omega) (by omega)).take_drop_eq])
    rw [hd', hd, hww, (h.segment le_rfl (by omega)).take_drop_eq, h.bufRead_eq (by omega) (by omega)]

end AgreeOn

/-- Settles O18: DecodeK and READ_TS give one and the same on buffers that agree on the footprint. -/
theorem readFootprintOnly : Obligations.ReadFootprintOnly := by
  refine ⟨fun k cfg buf buf' off s => ?_, fun buf buf' pos s hb h => ?_⟩
  · rw [← wireLen_eq]
    intro L hb h
    rw [exec_decodeOf, exec_decodeOf, AgreeOn.decodeK_eq _ _ h hb]
  · exact congrArg (deliver .timestamp · s) (AgreeOn.readTs_eq s.tsCodec h hb)

/-! ## The next request in order (R57) -/

theorem bindResult_of_ok {s : State} {v : Value} (h : s.result = some (.ok v)) (dst : Nat) :
    s.bindResult dst = s.setVars (HostVars.set s.vars dst v) := by
  simp [State.bindResult, h]

theorem bindResult_of_fault {s : State} {c : Cause} (h : s.result = some (.fault c)) (dst : Nat) :
    s.bindResult dst = s := by
  simp [State.bindResult, h]

/-- The step of a request that decodes: its meaning on the state with the request taken off, then the binding. -/
theorem step_of_decode {s t : State} {r : Request} {rest : List Request} {i : Instr} (hp : s.pending = r :: rest)
    (hd : decode r.opc r.args = .ok i) (h : exec i (s.setPending rest) = .next t) :
    step s = .next (t.bindResult r.dst) := by
  rw [step_cons hp, perform_ok hd, h, complete_next]

/-- Settles O42: the step's binding, for each of the two results. -/
theorem stepRunsTheDecodedRequest : Obligations.StepRunsTheDecodedRequest := by
  intro s r rest i hp hd
  refine ⟨fun t v h ht => ?_, fun t c h ht => ?_⟩
  · rw [step_of_decode hp hd h, bindResult_of_ok ht]
    rfl
  · rw [step_of_decode hp hd h, bindResult_of_fault ht]

/-! ## Two requests in either order (R57, R175) -/

/-- The state after a request bound to `dst` ended with `x` and left `rest` to perform. -/
def State.finish (s : State) (rest : List Request) (dst : Nat) (x : Result) : State :=
  ((s.setPending rest).setResult x).bindResult dst

section
variable (s : State) (rest : List Request) (dst : Nat) (x : Result)

@[simp] theorem State.finish_pending : (s.finish rest dst x).pending = rest := by cases x <;> rfl
@[simp] theorem State.finish_result : (s.finish rest dst x).result = some x := by cases x <;> rfl
@[simp] theorem State.finish_ioaCodec : (s.finish rest dst x).ioaCodec = s.ioaCodec := by cases x <;> rfl
@[simp] theorem State.finish_tsCodec : (s.finish rest dst x).tsCodec = s.tsCodec := by cases x <;> rfl

@[simp] theorem State.finish_ok_vars (v : Value) : (s.finish rest dst (.ok v)).vars = HostVars.set s.vars dst v := rfl
@[simp] theorem State.finish_fault_vars (c : Cause) : (s.finish rest dst (.fault c)).vars = s.vars := rfl

end

/-- Writes to two variables of a canonical store commute. -/
theorem HostVars.set_comm {vs : HostVars} (hw : HostVars.wf vs) {n m : Nat} (hnm : n ≠ m) (v w : Value) :
    HostVars.set (HostVars.set vs n v) m w = HostVars.set (HostVars.set vs m w) n v := by
  refine HostVars.ext_of_wf (HostVars.set_wf (HostVars.set_wf hw ..) ..) (HostVars.set_wf (HostVars.set_wf hw ..) ..) ?_
  intro j
  by_cases hn : j = n
  · subst hn
    rw [HostVars.get_set_other _ _ hnm, HostVars.get_set_same, HostVars.get_set_same]
  · by_cases hm : j = m
    · subst hm
      rw [HostVars.get_set_same, HostVars.get_set_other _ _ hn, HostVars.get_set_same]
    · simp only [HostVars.get_set_other _ _ hn, HostVars.get_set_other _ _ hm]

/-- The bindings of two requests to distinct variables commute: only two `ok` values write at all. -/
theorem State.finish_vars_comm {s s' : State} (hw : HostVars.wf s.vars) (hv : s'.vars = s.vars) {n m : Nat} (hnm : n ≠ m)
    (x y : Result) (p p' q q' : List Request) :
    ((s.finish p n x).finish p' m y).vars = ((s'.finish q m y).finish q' n x).vars := by
  cases x with
  | fault c => cases y <;> simp [hv]
  | ok v =>
    cases y with
    | fault c => simp [hv]
    | ok w => simpa [hv] using HostVars.set_comm hw hnm v w

/-- A well-typed request has one result in all states with the same codecs, since nothing survives from one request to
the next (R20). -/
theorem step_wellTyped {r : Request} (hr : r.wellTyped = true) (s : State) :
    ∃ x, ∀ (s' : State) (rest : List Request), s'.ioaCodec = s.ioaCodec → s'.tsCodec = s.tsCodec →
      s'.pending = r :: rest → step s' = .next (s'.finish rest r.dst x) := by
  obtain ⟨i, hd, -⟩ | ⟨hd, -⟩ | ⟨hi, -⟩ := perform_cases exec r s
  · obtain ⟨x, hx⟩ := exec_next i s
    refine ⟨x, fun s' rest hC hT hp => step_of_decode hp hd ?_⟩
    obtain ⟨y, hy, hy'⟩ := nothingSurvivesARequest i s (s'.setPending rest) (.inl hC.symm) (.inl hT.symm)
    have hxy : x = y := Option.some.inj (congrArg State.result (Host.Outcome.next.inj (hx.symm.trans hy)))
    rw [hy', hxy]
    rfl
  · refine ⟨.fault (.illegalRequest r.opc), fun s' rest _ _ hp => ?_⟩
    rw [step_cons hp, perform_reserved hd]
    rfl
  · rw [hr] at hi
    cases hi

/-- Settles O51: each request has its own result in either order, and the two bindings commute. -/
theorem independentRequestsCommute : Obligations.IndependentRequestsCommute := by
  intro s r1 r2 rest hI hp hne
  obtain ⟨x1, h1⟩ := step_wellTyped (hI.pending r1 (by simp [hp])) s
  obtain ⟨x2, h2⟩ := step_wellTyped (hI.pending r2 (by simp [hp])) s
  exact ⟨_, _, _, _,
    h1 s _ rfl rfl hp, h2 _ rest (by simp) (by simp) (by simp),
    h2 { s with pending := r2 :: r1 :: rest } _ rfl rfl rfl, h1 _ rest (by simp) (by simp) (by simp),
    State.finish_vars_comm hI.canonical rfl hne .., by simp, by simp, by simp⟩

end Sys2Proof.Machine
end

section
/-! PROOFS. The family of 30_encoding.md: the named constants (R62), the fields of the operation byte (R68, R69), its
reserved encodings (R71), and the objects a request does not take (R75). -/

namespace Sys2Proof

/-! ## The fields of the operation byte (R68, R69) -/

/-- `FAMILY` is the operation byte without its low five bits. -/
theorem family_eq_div (opc : Byte) : (opc.extractLsb' 5 3).toNat = opc.toNat / 32 := by
  rw [BitVec.extractLsb'_toNat, Nat.shiftRight_eq_div_pow]
  omega

/-- `SUB` is the low five bits of the operation byte. -/
theorem sub_eq_mod (opc : Byte) : (opc.extractLsb' 0 5).toNat = opc.toNat % 32 :=
  BitVec.extractLsb'_toNat ..

@[simp] theorem encode_opc (i : Instr) : (encode i).1 = i.op.opc := rfl

/-- Settles O40: by the opcode map, operation by operation and, in the three families of the kinds, kind by kind. -/
theorem opcodeFieldsByFamily : Obligations.OpcodeFieldsByFamily := by
  refine ⟨fun i => ?_, fun i k h => ?_⟩
  · rw [encode_opc]
    cases i.op with
    | packSco | unpackSco | packDcq | unpackDcq => rfl
    | build k | encode k | decode k => cases k <;> rfl
    | getIoa | getState | getSelect | getQu | getTs => rfl
    | appendTs | readTs => rfl
  · rw [encode_opc]
    obtain h | h | h := h
    all_goals
      rw [h]
      cases k <;> exact ⟨rfl, rfl, rfl⟩

/-! ## The reserved operation bytes (R71) -/

theorem qualifierOp_eq_none_iff (n : Nat) : qualifierOp n = none ↔ 4 ≤ n := by
  match n with
  | 0 | 1 | 2 | 3 => decide
  | n + 4 => simp [qualifierOp]

theorem accessorOp_eq_none_iff (n : Nat) : accessorOp n = none ↔ 5 ≤ n := by
  match n with
  | 0 | 1 | 2 | 3 | 4 => decide
  | n + 5 => simp [accessorOp]

theorem timestampOp_eq_none_iff (n : Nat) : timestampOp n = none ↔ 2 ≤ n := by
  match n with
  | 0 | 1 => decide
  | n + 2 => simp [timestampOp]

/-- The kind codes `101`, `110` and `111` are reserved, and so is every `SUB` that does not begin with `00`. -/
theorem kindOfSub_eq_none_iff (n : Nat) : kindOfSub n = none ↔ 5 ≤ n := by
  match n with
  | 0 | 1 | 2 | 3 | 4 | 5 | 6 | 7 => decide
  | n + 8 => simp [kindOfSub]

/-- The reserved bytes are, in each family that has operations, those past its last one, and then the families 6 and
7. -/
theorem decodeOpc_eq_none_iff (opc : Byte) : decodeOpc opc = none ↔
    (0x04 ≤ opc.toNat ∧ opc.toNat ≤ 0x1F) ∨ (0x25 ≤ opc.toNat ∧ opc.toNat ≤ 0x3F) ∨
    (0x45 ≤ opc.toNat ∧ opc.toNat ≤ 0x5F) ∨ (0x65 ≤ opc.toNat ∧ opc.toNat ≤ 0x7F) ∨
    (0x85 ≤ opc.toNat ∧ opc.toNat ≤ 0x9F) ∨ (0xA2 ≤ opc.toNat ∧ opc.toNat ≤ 0xBF) ∨ 0xC0 ≤ opc.toNat := by
  simp only [decodeOpc, family_eq_div, sub_eq_mod]
  split
  case h_1 => rw [qualifierOp_eq_none_iff]; omega
  case h_2 | h_3 | h_4 => rw [Option.map_eq_none_iff, kindOfSub_eq_none_iff]; omega
  case h_5 => rw [accessorOp_eq_none_iff]; omega
  case h_6 => rw [timestampOp_eq_none_iff]; omega
  case h_7 h0 h1 h2 h3 h4 h5 =>
    simp only [imp_false] at h0 h1 h2 h3 h4 h5
    simp only [true_iff]
    omega

end Sys2Proof

namespace Sys2Proof.Machine

/-- Settles O34: a request with a reserved byte is performed without a look at its operands, and its fault binds
nothing. -/
theorem reservedOpcodesAreIllegal : Obligations.ReservedOpcodesAreIllegal :=
  ⟨decodeOpc_eq_none_iff, fun s dst opc args rest hp hd => by
    rw [step_cons hp, perform_reserved (r := ⟨dst, opc, args⟩) hd]
    rfl⟩

/-! ## An object of another kind, and an object with no timestamp (R75, R167) -/

theorem legalWidth_iff (A : Nat) : legalWidth A ↔ 1 ≤ A ∧ A ≤ 3 := by
  simp only [legalWidth]
  omega

/-- ENCODE of an object of another kind, with a legal width, does nothing but end with the fault. -/
theorem exec_encodeOf_mismatch {k : Kind} {cfg : Cfg} {o : Cmd} (hA : legalWidth cfg.ioaWidth) (hk : o.kind ≠ k)
    (f : Bytes) (s : State) :
    exec (.encodeOf k cfg f o) s = .next (s.setResult (.fault (.operandMismatch o.kind))) := by
  rw [exec_encodeOf, encodeK_mismatch hA hk, deliver_error]

/-- Settles O33: the second check of EncodeK, and GET_TS with nothing to return. -/
theorem wrongObjectIsMismatch : Obligations.WrongObjectIsMismatch :=
  ⟨fun _ _ f _ s h1 h3 hk => exec_encodeOf_mismatch ((legalWidth_iff _).2 ⟨h1, h3⟩) hk f s,
    fun _ s h => exec_getTs_mismatch h s⟩

/-! ## The named constants (R62) -/

theorem exec_packSco (cmd sel : Bool) (qu : Int) (s : State) :
    exec (.packSco cmd sel qu) s = .next (s.setResult (.ok (.byte (packSco cmd sel qu)))) := rfl

theorem exec_packDcq (cmd : Int) (sel : Bool) (qu : Int) (s : State) :
    exec (.packDcq cmd sel qu) s = .next (s.setResult (.ok (.byte (packDcq cmd sel qu)))) := rfl

/-- Settles O8: the bytes of the table and the names of the two-bit states are closed values, which the model
computes. -/
theorem namedConstantsOnTheWire : Obligations.NamedConstantsOnTheWire := by
  intro s
  simp only [exec_packSco, exec_packDcq]
  refine ⟨rfl, rfl, rfl, rfl, rfl, rfl, rfl, rfl, rfl, ?_, rfl, rfl, ?_⟩
  · rintro k (rfl | rfl) <;> exact ⟨rfl, rfl⟩
  · rintro k (rfl | rfl | rfl) <;> exact ⟨rfl, rfl⟩

end Sys2Proof.Machine
end

section
/-! PROOFS. The family of 40_qualifier_codec.md: the value of a packed qualifier byte (R100, R102), the fields an unpack
reads from a byte (R101, R103), and the layout that STEP and DC share (R106). -/

namespace Sys2Proof.Machine

/-! ## The packed bytes (R100, R102) -/

/-- PACK_SCO's byte as a number, decided on the remainders its operand `qu` can have. -/
theorem packSco_toNat (cmd sel : Bool) (qu : Int) : (packSco cmd sel qu).toNat =
    (if cmd then 1 else 0) + 4 * (qu % 32).toNat + (if sel then 128 else 0) := by
  obtain ⟨n, hn⟩ := exists_fin32 qu
  rw [packSco_of_fin hn, hn]
  clear hn
  revert cmd sel n
  decide

/-- PACK_DCQ's byte as a number, decided on the remainders its operands `cmd` and `qu` can have. -/
theorem packDcq_toNat (cmd : Int) (sel : Bool) (qu : Int) : (packDcq cmd sel qu).toNat =
    (cmd % 4).toNat + 4 * (qu % 32).toNat + (if sel then 128 else 0) := by
  obtain ⟨m, hm⟩ := exists_fin4 cmd
  obtain ⟨n, hn⟩ := exists_fin32 qu
  rw [packDcq_of_fin hm hn, hm, hn]
  clear hm hn
  revert sel m n
  decide

/-- A bit of a byte is a binary digit of its value. -/
theorem getLsbD_eq_decide (b : Byte) (i : Nat) : b.getLsbD i = decide (b.toNat / 2 ^ i % 2 = 1) := by
  rw [BitVec.getLsbD, Nat.testBit_eq_decide_div_mod_eq]

/-- PACK_SCO sets no reserved bit: its value has the digit 0 at place 1. -/
theorem packSco_bit1 (cmd sel : Bool) (qu : Int) : (packSco cmd sel qu).getLsbD 1 = false := by
  rw [getLsbD_eq_decide, packSco_toNat, decide_eq_false_iff_not]
  split <;> split <;> omega

/-- Settles O1: by the value of the packed byte. -/
theorem packScoByteValue : Obligations.PackScoByteValue := by
  intro cmd sel qu s
  refine ⟨packSco cmd sel qu, exec_packSco cmd sel qu s, ?_, packSco_bit1 cmd sel qu⟩
  have h0 : 0 ≤ qu % 32 := by omega
  rw [packSco_toNat]
  push_cast [Int.toNat_of_nonneg h0]
  rfl

/-- Settles O3: by the value of the packed byte. -/
theorem packDcqByteValue : Obligations.PackDcqByteValue := by
  intro cmd sel qu s
  refine ⟨packDcq cmd sel qu, exec_packDcq cmd sel qu s, ?_⟩
  have hc : 0 ≤ cmd % 4 := by omega
  have hq : 0 ≤ qu % 32 := by omega
  rw [packDcq_toNat]
  push_cast [Int.toNat_of_nonneg hc, Int.toNat_of_nonneg hq]
  rfl

/-! ## The fields of a byte (R101, R103) -/

theorem scoState_eq (b : Byte) : scoState b = decide (b.toNat % 2 = 1) := by
  rw [scoState, getLsbD_eq_decide, pow_zero, Nat.div_one]

theorem dcqState_eq (b : Byte) : dcqState b = b.toNat % 4 := BitVec.extractLsb'_toNat ..

theorem quField_eq (b : Byte) : quField b = b.toNat / 4 % 32 := by
  rw [quField, BitVec.extractLsb'_toNat, Nat.shiftRight_eq_div_pow]

theorem selField_eq (b : Byte) : selField b = decide (128 ≤ b.toNat) := by
  rw [selField, getLsbD_eq_decide, decide_eq_decide]
  omega

theorem exec_unpackSco (b : Byte) (s : State) : exec (.unpackSco b) s =
    .next (s.setResult (.ok (.scoFields (scoState b) (quField b) (selField b)))) := rfl

theorem exec_unpackDcq (b : Byte) (s : State) : exec (.unpackDcq b) s =
    .next (s.setResult (.ok (.dcqFields (dcqState b) (quField b) (selField b)))) := rfl

/-- No field of the SCO layout reads bit 1. -/
theorem scoFields_flip_bit1 (b : Byte) : scoState (b ^^^ 0x02) = scoState b ∧ quField (b ^^^ 0x02) = quField b ∧
    selField (b ^^^ 0x02) = selField b := by
  refine ⟨?_, ?_, ?_⟩
  · simp [scoState]
  · simp [quField, BitVec.extractLsb'_xor]
  · simp [selField]

/-- Settles O2: the fields as digits of the byte's value, none of which reads bit 1. -/
theorem unpackScoFieldValues : Obligations.UnpackScoFieldValues := by
  intro b s
  obtain ⟨hstate, hqu, hsel⟩ := scoFields_flip_bit1 b
  refine ⟨?_, ?_⟩
  · rw [exec_unpackSco, scoState_eq, quField_eq, selField_eq]
    rfl
  · rw [exec_unpackSco, exec_unpackSco, hstate, hqu, hsel]

/-- Settles O4: the fields as digits of the byte's value. -/
theorem unpackDcqFieldValues : Obligations.UnpackDcqFieldValues := by
  intro b s
  rw [exec_unpackDcq, dcqState_eq, quField_eq, selField_eq]
  rfl

/-! ## STEP and DC share the layout (R106) -/

/-- The fields of PACK_DCQ's byte are its operands, masked. -/
theorem dcqFields_packDcq (cmd : Int) (sel : Bool) (qu : Int) :
    dcqState (packDcq cmd sel qu) = (cmd % 4).toNat ∧ quField (packDcq cmd sel qu) = (qu % 32).toNat ∧
      selField (packDcq cmd sel qu) = sel := by
  rw [dcqState_eq, quField_eq, selField_eq, packDcq_toNat]
  refine ⟨?_, ?_, ?_⟩
  · split <;> omega
  · split <;> omega
  · cases sel with
    | true => simp
    | false => simp; omega

/-- EncodeK writes an object with no timestamp alike under each kind that has none. -/
theorem encodeK_plain_kind {k k' : Kind} (hk : k.hasTs = false) (hk' : k'.hasTs = false) (C : IoaCodec) (T : TsCodec)
    (cfg : Cfg) (f : Bytes) (ioa : Nat) (q : Byte) :
    encodeK C T k cfg f ⟨k, ioa, q, none⟩ = encodeK C T k' cfg f ⟨k', ioa, q, none⟩ := by
  by_cases hl : legalWidth cfg.ioaWidth
  · rw [encodeK_plain (o := ⟨k, ioa, q, none⟩) hl rfl hk, encodeK_plain (o := ⟨k', ioa, q, none⟩) hl rfl hk']
  · rw [encodeK_badConfig hl, encodeK_badConfig hl]

/-- What DecodeK reads under one kind without a timestamp it reads under another, but for the kind. -/
theorem decodeK_plain_kind {C : IoaCodec} {T : TsCodec} {k k' : Kind} {cfg : Cfg} {buf : Bytes} {off : Nat}
    {r : Cmd × Nat} (hk : k.hasTs = false) (hk' : k'.hasTs = false) (h : decodeK C T k cfg buf off = .ok r) :
    decodeK C T k' cfg buf off = .ok ({ r.1 with kind := k' }, r.2) := by
  obtain ⟨hl, hb, -⟩ := decodeK_ok h
  rw [wireLen_plain _ hk] at hb
  rw [decodeK_plain hl hk hb] at h
  obtain rfl := Except.ok.inj h
  exact decodeK_plain hl hk' hb

theorem exec_buildStep (ioa : Nat) (cmd : Int) (sel : Bool) (qu : Int) (s : State) :
    exec (.buildStep ioa cmd sel qu) s = .next (s.setResult (.ok (.cmd ⟨.step, ioa, packDcq cmd sel qu, none⟩))) := rfl

/-- Settles O19: STEP's byte is PACK_DCQ's, and EncodeK and DecodeK treat the kinds without a timestamp alike. -/
theorem stepSharesTheDoubleLayout : Obligations.StepSharesTheDoubleLayout := by
  refine ⟨fun ioa cmd sel qu s => ?_, fun cfg f ioa q s => ?_, fun cfg buf off next o s h => ?_, rfl, rfl, rfl, rfl⟩
  · obtain ⟨hstate, hqu, hsel⟩ := dcqFields_packDcq cmd sel qu
    refine ⟨packDcq cmd sel qu, exec_packDcq .., exec_buildStep .., ?_, ?_⟩
    · rw [exec_unpackDcq, hstate, hqu, hsel]
      rfl
    · rw [exec_getState, ← hstate]
      rfl
  · exact congrArg (deliver .frame · s) (encodeK_plain_kind rfl rfl ..)
  · obtain ⟨r, hr, hv⟩ := deliver_eq_ok h rfl
    obtain ⟨rfl, rfl⟩ := Value.decoded.inj hv
    obtain ⟨-, -, hkind, -⟩ := decodeK_ok hr
    exact ⟨hkind, congrArg (deliver decodedValue · s) (decodeK_plain_kind rfl rfl hr)⟩

end Sys2Proof.Machine
end

section
/-! PROOFS. The family of 41_command_variants.md: the objects a BUILD answers (R110 to R114), the frame an ENCODE
answers (R121 to R125), the object a DECODE answers (R131 to R135), and the accessors (R140 to R144). -/

namespace Sys2Proof.Machine

/-! ## The kinds by layout and by timestamp (R28) -/

theorem qk_eq_sco_iff (k : Kind) : k.qk = .sco ↔ k = .sc ∨ k = .sct := by
  cases k <;> decide

theorem qk_eq_dcq_iff (k : Kind) : k.qk = .dcq ↔ k = .dc ∨ k = .dct ∨ k = .step := by
  cases k <;> decide

theorem hasTs_eq_false_iff (k : Kind) : k.hasTs = false ↔ k = .sc ∨ k = .dc ∨ k = .step := by
  cases k <;> decide

/-! ## BUILD (R110 to R113; `exec_buildStep` is R114) -/

theorem exec_buildSc (ioa : Nat) (cmd sel : Bool) (qu : Int) (s : State) :
    exec (.buildSc ioa cmd sel qu) s = .next (s.setResult (.ok (.cmd ⟨.sc, ioa, packSco cmd sel qu, none⟩))) := rfl

theorem exec_buildSct (ioa : Nat) (cmd sel : Bool) (qu : Int) (ts : Timestamp) (s : State) :
    exec (.buildSct ioa cmd sel qu ts) s = .next (s.setResult (.ok (.cmd ⟨.sct, ioa, packSco cmd sel qu, some ts⟩))) :=
  rfl

theorem exec_buildDc (ioa : Nat) (cmd : Int) (sel : Bool) (qu : Int) (s : State) :
    exec (.buildDc ioa cmd sel qu) s = .next (s.setResult (.ok (.cmd ⟨.dc, ioa, packDcq cmd sel qu, none⟩))) := rfl

theorem exec_buildDct (ioa : Nat) (cmd : Int) (sel : Bool) (qu : Int) (ts : Timestamp) (s : State) :
    exec (.buildDct ioa cmd sel qu ts) s = .next (s.setResult (.ok (.cmd ⟨.dct, ioa, packDcq cmd sel qu, some ts⟩))) :=
  rfl

/-- Settles O9: both objects hold PACK_SCO's byte. -/
theorem buildScoObjects : Obligations.BuildScoObjects := fun ioa cmd sel qu ts s =>
  ⟨packSco cmd sel qu, exec_packSco .., exec_buildSc .., exec_buildSct ioa cmd sel qu ts s⟩

/-- Settles O10: the three objects hold PACK_DCQ's byte. -/
theorem buildDcqObjects : Obligations.BuildDcqObjects := fun ioa cmd sel qu ts s =>
  ⟨packDcq cmd sel qu, exec_packDcq .., exec_buildDc .., exec_buildDct ioa cmd sel qu ts s, exec_buildStep ..⟩

/-! ## The accessors (R140 to R144) -/

theorem exec_getIoa (o : Cmd) (s : State) : exec (.getIoa o) s = .next (s.setResult (.ok (.nat o.ioa))) := rfl

theorem exec_getSelect (o : Cmd) (s : State) :
    exec (.getSelect o) s = .next (s.setResult (.ok (.bool (selField o.q)))) := rfl

theorem exec_getQu (o : Cmd) (s : State) : exec (.getQu o) s = .next (s.setResult (.ok (.nat (quField o.q)))) := rfl

theorem exec_getState_sco {o : Cmd} (h : o.kind.qk = .sco) (s : State) :
    exec (.getState o) s = .next (s.setResult (.ok (.bool (scoState o.q)))) := by
  rw [exec_getState, h]

theorem exec_getState_dcq {o : Cmd} (h : o.kind.qk = .dcq) (s : State) :
    exec (.getState o) s = .next (s.setResult (.ok (.nat (dcqState o.q)))) := by
  rw [exec_getState, h]

/-- Settles O24: the fields as digits of the byte's value. -/
theorem accessorFieldValues : Obligations.AccessorFieldValues := by
  intro o s
  rw [exec_getSelect, exec_getQu, selField_eq, quField_eq]
  exact ⟨exec_getIoa o s, rfl, rfl⟩

/-- Settles O25: the state field of the kind's layout, which is also the first field its UNPACK answers. -/
theorem getStateByLayout : Obligations.GetStateByLayout := by
  refine fun o s => ⟨fun hk => ⟨?_, _, _, (unpackScoFieldValues o.q s).1⟩,
    fun hk => ⟨?_, _, _, unpackDcqFieldValues o.q s⟩⟩
  · rw [exec_getState_sco ((qk_eq_sco_iff _).2 hk), scoState_eq]
    rfl
  · rw [exec_getState_dcq ((qk_eq_dcq_iff _).2 hk), dcqState_eq]
    rfl

/-- Settles O26: GET_TS of a kind with a timestamp, and of one without. -/
theorem getTsOrMismatch : Obligations.GetTsOrMismatch := fun _ _ s =>
  ⟨fun hk ht => exec_getTs_some ((hasTs_iff _).2 hk) ht s,
    fun hk => exec_getTs_mismatch (.inl ((hasTs_eq_false_iff _).2 hk)) s⟩

/-! ## The accessors of an object that BUILD answered -/

/-- The fields of PACK_SCO's byte are its operands, masked. -/
theorem scoFields_packSco (cmd sel : Bool) (qu : Int) :
    scoState (packSco cmd sel qu) = cmd ∧ quField (packSco cmd sel qu) = (qu % 32).toNat ∧
      selField (packSco cmd sel qu) = sel := by
  rw [scoState_eq, quField_eq, selField_eq, packSco_toNat]
  refine ⟨?_, ?_, ?_⟩
  · cases cmd with
    | true => rw [if_pos rfl, decide_eq_true_iff]; split <;> omega
    | false => rw [if_neg Bool.false_ne_true, decide_eq_false_iff_not]; split <;> omega
  · split <;> split <;> omega
  · cases sel with
    | true => simp
    | false => rw [if_neg Bool.false_ne_true, decide_eq_false_iff_not]; split <;> omega

/-- A request that answers the object `b` answers no other. -/
theorem eq_of_exec_cmd {i : Instr} {s t : State} {b o : Cmd} (hb : exec i s = .next (s.setResult (.ok (.cmd b))))
    (h : exec i s = .next t) (ht : t.result = some (.ok (.cmd o))) : o = b := by
  obtain rfl := Host.Outcome.next.inj (hb.symm.trans h)
  simpa using ht.symm

/-- The accessors of an object of an SCO kind with PACK_SCO's byte, which holds `ts` if it is an SCT object. -/
theorem accessors_packSco {k : Kind} {ots : Option Timestamp} {ts : Timestamp} (hk : k.qk = .sco)
    (hts : k = .sct → ots = some ts) (ioa : Nat) (cmd sel : Bool) (qu : Int) (s : State) :
    let o : Cmd := ⟨k, ioa, packSco cmd sel qu, ots⟩
    exec (.getIoa o) s = .next (s.setResult (.ok (.nat ioa))) ∧
    exec (.getState o) s = .next (s.setResult (.ok (.bool cmd))) ∧
    exec (.getSelect o) s = .next (s.setResult (.ok (.bool sel))) ∧
    exec (.getQu o) s = .next (s.setResult (.ok (.nat (qu % 32).toNat))) ∧
    (k = .sct → exec (.getTs o) s = .next (s.setResult (.ok (.timestamp ts)))) := by
  obtain ⟨hstate, hqu, hsel⟩ := scoFields_packSco cmd sel qu
  intro o
  rw [exec_getState_sco (o := o) hk, exec_getSelect, exec_getQu, hstate, hqu, hsel]
  exact ⟨exec_getIoa o s, rfl, rfl, rfl, fun h => exec_getTs_some ((hasTs_iff k).2 (.inl h)) (hts h) s⟩

/-- The accessors of an object of a DCQ kind with PACK_DCQ's byte, which holds `ts` if it is a DCT object. -/
theorem accessors_packDcq {k : Kind} {ots : Option Timestamp} {ts : Timestamp} (hk : k.qk = .dcq)
    (hts : k = .dct → ots = some ts) (ioa : Nat) (cmd : Int) (sel : Bool) (qu : Int) (s : State) :
    let o : Cmd := ⟨k, ioa, packDcq cmd sel qu, ots⟩
    exec (.getIoa o) s = .next (s.setResult (.ok (.nat ioa))) ∧
    exec (.getState o) s = .next (s.setResult (.ok (.nat (cmd % 4).toNat))) ∧
    exec (.getSelect o) s = .next (s.setResult (.ok (.bool sel))) ∧
    exec (.getQu o) s = .next (s.setResult (.ok (.nat (qu % 32).toNat))) ∧
    (k = .dct → exec (.getTs o) s = .next (s.setResult (.ok (.timestamp ts)))) := by
  obtain ⟨hstate, hqu, hsel⟩ := dcqFields_packDcq cmd sel qu
  intro o
  rw [exec_getState_dcq (o := o) hk, exec_getSelect, exec_getQu, hstate, hqu, hsel]
  exact ⟨exec_getIoa o s, rfl, rfl, rfl, fun h => exec_getTs_some ((hasTs_iff k).2 (.inr h)) (hts h) s⟩

/-- Settles O11: the BUILD that answered the object fixes its kind, so its layout and whether it has a timestamp. -/
theorem accessorsReadBackBuild : Obligations.AccessorsReadBackBuild := by
  refine ⟨fun ioa cmd sel qu ts s t o h ht => ?_, fun ioa cmd sel qu ts s t o h ht => ?_⟩
  · obtain h | h := h
    · obtain rfl := eq_of_exec_cmd (exec_buildSc ..) h ht
      exact accessors_packSco (k := .sc) rfl nofun ioa cmd sel qu t
    · obtain rfl := eq_of_exec_cmd (exec_buildSct ..) h ht
      exact accessors_packSco (k := .sct) rfl (fun _ => rfl) ioa cmd sel qu t
  · obtain h | h | h := h
    · obtain rfl := eq_of_exec_cmd (exec_buildDc ..) h ht
      exact accessors_packDcq (k := .dc) rfl nofun ioa cmd sel qu t
    · obtain rfl := eq_of_exec_cmd (exec_buildDct ..) h ht
      exact accessors_packDcq (k := .dct) rfl (fun _ => rfl) ioa cmd sel qu t
    · obtain rfl := eq_of_exec_cmd (exec_buildStep ..) h ht
      exact accessors_packDcq (k := .step) rfl nofun ioa cmd sel qu t

/-! ## ENCODE by kind (R120) -/

section
variable {k : Kind} {cfg : Cfg} {o : Cmd}

theorem exec_encodeOf_badConfig (k : Kind) (hA : ¬ legalWidth cfg.ioaWidth) (f : Bytes) (o : Cmd) (s : State) :
    exec (.encodeOf k cfg f o) s = .next (s.setResult (.fault (.badConfig cfg.ioaWidth))) := by
  rw [exec_encodeOf, encodeK_badConfig hA, deliver_error]

theorem exec_encodeOf_plain (hA : legalWidth cfg.ioaWidth) (hk : o.kind = k) (hts : k.hasTs = false) (f : Bytes)
    (s : State) : exec (.encodeOf k cfg f o) s =
      .next (s.setResult (.ok (.frame (f ++ ioaEncode s.ioaCodec o.ioa cfg.ioaWidth ++ [o.q])))) := by
  rw [exec_encodeOf, encodeK_plain hA hk hts, deliver_ok]

theorem exec_encodeOf_stamped {ts : Timestamp} (hA : legalWidth cfg.ioaWidth) (hk : o.kind = k) (hts : k.hasTs = true)
    (ho : o.ts = some ts) (f : Bytes) (s : State) : exec (.encodeOf k cfg f o) s =
      .next (s.setResult (.ok (.frame
        (f ++ ioaEncode s.ioaCodec o.ioa cfg.ioaWidth ++ [o.q] ++ tsEncode s.tsCodec ts)))) := by
  rw [exec_encodeOf, encodeK_stamped hA hk hts ho, deliver_ok]

end

/-- Byte `k` of the default address segment is digit `k` of the address in base 256 (R7). -/
theorem ioaEncode_lsbFirst_getElem? (ioa : Nat) {A k : Nat} (hk : k < A) :
    (ioaEncode .lsbFirst ioa A)[k]? = some (BitVec.ofNat 8 (ioa / 256 ^ k)) := by
  simp [ioaEncode, hk, Nat.shiftRight_eq_div_pow, pow_mul]

theorem tsEncode_identity (t : Timestamp) : tsEncode .identity t = t.bytes := rfl

theorem tsDecode_identity (w : Timestamp) : tsDecode .identity w = w := rfl

/-- Settles O12: each of EncodeK's three ends, for the kinds without a timestamp. -/
theorem encodeWithoutTimestamp : Obligations.EncodeWithoutTimestamp := by
  rintro cfg f o s A rfl
  refine ⟨⟨ioaEncode_length .., fun hC _ hk => hC ▸ ioaEncode_lsbFirst_getElem? _ hk⟩, fun hA => ?_, fun hA => ?_⟩
  · rw [← legalWidth_iff] at hA
    exact ⟨fun hk => exec_encodeOf_plain hA hk rfl f s, fun hk => exec_encodeOf_mismatch hA hk f s,
      fun hk => exec_encodeOf_plain hA hk rfl f s, fun hk => exec_encodeOf_mismatch hA hk f s,
      fun hk => exec_encodeOf_plain hA hk rfl f s, fun hk => exec_encodeOf_mismatch hA hk f s⟩
  · rw [← legalWidth_iff] at hA
    exact ⟨exec_encodeOf_badConfig .sc hA f o s, exec_encodeOf_badConfig .dc hA f o s,
      exec_encodeOf_badConfig .step hA f o s⟩

/-- Settles O13: each of EncodeK's three ends, for the kinds with a timestamp. -/
theorem encodeWithTimestamp : Obligations.EncodeWithTimestamp := by
  rintro cfg f o ts s A rfl
  refine ⟨⟨by simp, tsEncode_length .., fun hT => ?_, fun hC _ hk => hC ▸ ioaEncode_lsbFirst_getElem? _ hk⟩,
    fun hA => ?_, fun hA => ?_⟩
  · rw [hT, tsEncode_identity, Timestamp.bytes]
  · rw [← legalWidth_iff] at hA
    exact ⟨fun ⟨hk, ho⟩ => exec_encodeOf_stamped hA hk rfl ho f s, fun hk => exec_encodeOf_mismatch hA hk f s,
      fun ⟨hk, ho⟩ => exec_encodeOf_stamped hA hk rfl ho f s, fun hk => exec_encodeOf_mismatch hA hk f s⟩
  · rw [← legalWidth_iff] at hA
    exact ⟨exec_encodeOf_badConfig .sct hA f o s, exec_encodeOf_badConfig .dct hA f o s⟩

/-- Where EncodeK of a kind without a timestamp answers `w`, EncodeK of a kind with one answers what APPEND_TS makes of
`w`. -/
theorem encodeK_stamped_of_plain {C : IoaCodec} {T : TsCodec} {k k' : Kind} {cfg : Cfg} {f w : Bytes} {ioa : Nat}
    {q : Byte} (hk : k.hasTs = false) (hk' : k'.hasTs = true) (h : encodeK C T k cfg f ⟨k, ioa, q, none⟩ = .ok w)
    (ts : Timestamp) : encodeK C T k' cfg f ⟨k', ioa, q, some ts⟩ = .ok (appendTs T w ts) := by
  obtain ⟨hA, -⟩ := encodeK_ok h
  rw [encodeK_plain (o := ⟨k, ioa, q, none⟩) hA rfl hk] at h
  obtain rfl := Except.ok.inj h
  exact encodeK_stamped hA rfl hk' rfl

theorem exec_encodeOf_stamped_of_plain {k k' : Kind} {cfg : Cfg} {f w : Bytes} {ioa : Nat} {q : Byte} {s t : State}
    (hk : k.hasTs = false) (hk' : k'.hasTs = true) (h : exec (.encodeOf k cfg f ⟨k, ioa, q, none⟩) s = .next t)
    (ht : t.result = some (.ok (.frame w))) (ts : Timestamp) :
    exec (.encodeOf k' cfg f ⟨k', ioa, q, some ts⟩) s = exec (.appendTs w ts) s := by
  rw [exec_encodeOf] at h
  obtain ⟨w', hw, hv⟩ := deliver_eq_ok h ht
  obtain rfl := Value.frame.inj hv
  rw [exec_encodeOf, encodeK_stamped_of_plain hk hk' hw]
  rfl

/-- Settles O15: EncodeK's last segment is the one APPEND_TS writes. -/
theorem stampedEncodeIsPlainThenAppend : Obligations.StampedEncodeIsPlainThenAppend := fun _ _ _ _ _ ts _ _ =>
  ⟨fun h ht => exec_encodeOf_stamped_of_plain (k := .sc) (k' := .sct) rfl rfl h ht ts,
    fun h ht => exec_encodeOf_stamped_of_plain (k := .dc) (k' := .dct) rfl rfl h ht ts⟩

/-! ## DECODE by kind (R130) -/

section
variable {k : Kind} {cfg : Cfg} {buf : Bytes} {off : Nat}

theorem exec_decodeOf_badConfig (k : Kind) (hA : ¬ legalWidth cfg.ioaWidth) (buf : Bytes) (off : Nat) (s : State) :
    exec (.decodeOf k cfg buf off) s = .next (s.setResult (.fault (.badConfig cfg.ioaWidth))) := by
  rw [exec_decodeOf, decodeK_badConfig hA, deliver_error]

theorem exec_decodeOf_short (k : Kind) (hA : legalWidth cfg.ioaWidth) (hb : buf.length < off + wireLen k cfg.ioaWidth)
    (s : State) : exec (.decodeOf k cfg buf off) s =
      .next (s.setResult (.fault (.malformedInput off (wireLen k cfg.ioaWidth) buf.length))) := by
  rw [exec_decodeOf, decodeK_short hA hb, deliver_error]

theorem exec_decodeOf_plain (hk : k.hasTs = false) (hA : legalWidth cfg.ioaWidth)
    (hb : off + (cfg.ioaWidth + 1) ≤ buf.length) (s : State) : exec (.decodeOf k cfg buf off) s =
      .next (s.setResult (.ok (.decoded ⟨k, ioaDecode s.ioaCodec ((buf.drop off).take cfg.ioaWidth),
        bufRead buf (off + cfg.ioaWidth), none⟩ (off + (cfg.ioaWidth + 1))))) := by
  rw [exec_decodeOf, decodeK_plain hA hk hb, deliver_ok, decodedValue]

/-- The timestamp is the value the codec reads from the seven bytes `w` that stand after the qualifier byte. -/
theorem exec_decodeOf_stamped {w : Timestamp} (hk : k.hasTs = true) (hA : legalWidth cfg.ioaWidth)
    (hb : off + (cfg.ioaWidth + 8) ≤ buf.length) (hw : w.bytes = (buf.drop (off + cfg.ioaWidth + 1)).take 7)
    (s : State) : exec (.decodeOf k cfg buf off) s =
      .next (s.setResult (.ok (.decoded ⟨k, ioaDecode s.ioaCodec ((buf.drop off).take cfg.ioaWidth),
        bufRead buf (off + cfg.ioaWidth), some (tsDecode s.tsCodec w)⟩ (off + (cfg.ioaWidth + 8))))) := by
  obtain ⟨w', hw', hd⟩ := decodeK_stamped (C := s.ioaCodec) (T := s.tsCodec) hA hk hb
  obtain rfl := Timestamp.bytes_inj (hw'.trans hw.symm)
  rw [exec_decodeOf, hd, deliver_ok, decodedValue]

end

/-- Settles O16: each of DecodeK's three ends, for the kinds without a timestamp. -/
theorem decodeWithoutTimestamp : Obligations.DecodeWithoutTimestamp := by
  rintro cfg buf off s A rfl
  refine ⟨fun hA => ?_, fun hA => ?_⟩
  · rw [← legalWidth_iff] at hA
    refine ⟨fun hb => ⟨bufRead buf (off + cfg.ioaWidth), bufRead_getElem? (by omega), ?_⟩, fun hb => ?_⟩
    · exact ⟨exec_decodeOf_plain (k := .sc) rfl hA hb s, exec_decodeOf_plain (k := .dc) rfl hA hb s,
        exec_decodeOf_plain (k := .step) rfl hA hb s⟩
    · exact ⟨exec_decodeOf_short .sc hA hb s, exec_decodeOf_short .dc hA hb s, exec_decodeOf_short .step hA hb s⟩
  · rw [← legalWidth_iff] at hA
    exact ⟨exec_decodeOf_badConfig .sc hA buf off s, exec_decodeOf_badConfig .dc hA buf off s,
      exec_decodeOf_badConfig .step hA buf off s⟩

/-- Settles O17: each of DecodeK's three ends, for the kinds with a timestamp. -/
theorem decodeWithTimestamp : Obligations.DecodeWithTimestamp := by
  rintro cfg buf off s A rfl
  refine ⟨fun hA => ?_, fun hA => ?_⟩
  · rw [← legalWidth_iff] at hA
    refine ⟨fun hb => ?_, fun hb => ?_⟩
    · obtain ⟨w, hw, -⟩ := readTs_ok (T := s.tsCodec) (show off + cfg.ioaWidth + 1 + 7 ≤ buf.length from hb)
      exact ⟨bufRead buf (off + cfg.ioaWidth), w, bufRead_getElem? (by omega), hw.symm,
        fun hT => by rw [hT, tsDecode_identity],
        exec_decodeOf_stamped (k := .sct) rfl hA hb hw s, exec_decodeOf_stamped (k := .dct) rfl hA hb hw s⟩
    · exact ⟨exec_decodeOf_short .sct hA hb s, exec_decodeOf_short .dct hA hb s⟩
  · rw [← legalWidth_iff] at hA
    exact ⟨exec_decodeOf_badConfig .sct hA buf off s, exec_decodeOf_badConfig .dct hA buf off s⟩

end Sys2Proof.Machine
end

section
/-! PROOFS. The family of 42_timestamp.md: APPEND_TS (R150) and READ_TS (R151). -/

namespace Sys2Proof.Machine

theorem exec_appendTs (f : Bytes) (ts : Timestamp) (s : State) :
    exec (.appendTs f ts) s = .next (s.setResult (.ok (.frame (f ++ tsEncode s.tsCodec ts)))) := rfl

theorem exec_readTs (buf : Bytes) (pos : Nat) (s : State) :
    exec (.readTs buf pos) s = deliver .timestamp (readTs s.tsCodec buf pos) s := rfl

/-- When seven bytes `w` remain at `pos`, READ_TS answers the value the codec reads from them. -/
theorem exec_readTs_ok {buf : Bytes} {pos : Nat} (hb : pos + 7 ≤ buf.length) (s : State) :
    ∃ w : Timestamp, w.bytes = (buf.drop pos).take 7 ∧
      exec (.readTs buf pos) s = .next (s.setResult (.ok (.timestamp (tsDecode s.tsCodec w)))) := by
  obtain ⟨w, hw, hr⟩ := readTs_ok (T := s.tsCodec) hb
  exact ⟨w, hw, by rw [exec_readTs, hr, deliver_ok]⟩

theorem exec_readTs_short {buf : Bytes} {pos : Nat} (hb : buf.length < pos + 7) (s : State) :
    exec (.readTs buf pos) s = .next (s.setResult (.fault (.malformedInput pos 7 buf.length))) := by
  rw [exec_readTs, readTs_short hb, deliver_error]

/-- Settles O27: the segment appended is the codec's, which under the identity is the value's own bytes. -/
theorem appendTsBytes : Obligations.AppendTsBytes := by
  intro f ts s
  refine ⟨tsEncode s.tsCodec ts, tsEncode_length .., exec_appendTs f ts s, rfl, fun hT => ?_⟩
  rw [hT, tsEncode_identity, Timestamp.bytes]

/-- Settles O28: the two sides of READ_TS's bounds check. -/
theorem readTsBytes : Obligations.ReadTsBytes := by
  refine fun buf pos s => ⟨fun hb => ?_, fun hb => exec_readTs_short hb s⟩
  obtain ⟨w, hw, hx⟩ := exec_readTs_ok hb s
  exact ⟨w, hw.symm, fun hT => by rw [hT, tsDecode_identity], hx⟩

end Sys2Proof.Machine
end

section
/-! PROOFS. The family of 60_exceptions.md: the codes of the causes (R160), exactly when each request faults and with
what (R161, R164, R166), and which fault comes first (R168). -/

namespace Sys2Proof.Machine

/-! ## The codes and `STATUS` (R160) -/

theorem Cause.code_pos (c : Cause) : 0 < c.code := by
  cases c <;> exact Nat.succ_pos _

theorem Cause.code_le_four (c : Cause) : c.code ≤ 4 := by
  cases c <;> simp [Cause.code]

@[simp] theorem Result.status_ok (v : Value) : (Result.ok v).status = 0 := rfl

@[simp] theorem Result.status_fault (c : Cause) : (Result.fault c).status = c.code := rfl

theorem Result.status_le_four (r : Result) : r.status ≤ 4 := by
  cases r with
  | ok v => exact Nat.zero_le 4
  | fault c => exact c.code_le_four

theorem Result.status_eq_zero_iff (r : Result) : r.status = 0 ↔ ∃ v, r = .ok v := by
  cases r with
  | ok v => simp
  | fault c => simp [c.code_pos.ne']

@[simp] theorem State.setResult_status (s : State) (r : Result) : (s.setResult r).status = some r.status := rfl

/-- Settles O30: every result has a code of at most 4, and every request ends with a result. -/
theorem statusCodeNumbers : Obligations.StatusCodeNumbers := by
  refine ⟨fun _ _ _ => rfl, fun _ => rfl, fun _ => rfl, fun _ => rfl, fun r => ?_, State.setResult_status,
    fun i s => ?_⟩
  · exact ⟨r.status_le_four, r.status_eq_zero_iff, fun c hc => hc ▸ Result.status_fault c⟩
  · obtain ⟨r, hr⟩ := exec_next i s
    exact ⟨_, _, hr, s.setResult_status r, r.status_le_four⟩

/-! ## A short buffer (R164) and an illegal width (R166) -/

/-- Settles O31: the bounds checks of DecodeK, whose length is the wire length, and of READ_TS. -/
theorem shortBufferIsMalformed : Obligations.ShortBufferIsMalformed := by
  refine ⟨fun k cfg buf off s => ?_, fun buf pos s hb => exec_readTs_short hb s⟩
  rw [← wireLen_eq]
  intro L h1 h3 hb
  exact exec_decodeOf_short k ((legalWidth_iff _).2 ⟨h1, h3⟩) hb s

/-- Settles O32: the first check of EncodeK and of DecodeK. -/
theorem illegalWidthIsBadConfig : Obligations.IllegalWidthIsBadConfig := by
  intro k cfg f buf o off s h1 h2 h3
  have hA : ¬ legalWidth cfg.ioaWidth := by simp [legalWidth, h1, h2, h3]
  exact ⟨exec_encodeOf_badConfig k hA f o s, exec_decodeOf_badConfig k hA buf off s⟩

/-! ## The priority of the faults (R168) -/

/-- Settles O35: a reserved byte is rejected before the operands are read, and the width is the first check of EncodeK
and of DecodeK. -/
theorem faultPriorityOrder : Obligations.FaultPriorityOrder := by
  refine ⟨fun s r rest hp hd => ?_, fun k cfg f o s hk => ?_, fun k cfg buf off s hb => ?_⟩
  · exact ⟨_, (step_cons hp).trans (perform_reserved hd _), rfl⟩
  · simp only [← legalWidth_iff]
    by_cases hA : legalWidth cfg.ioaWidth
    · exact ⟨_, exec_encodeOf_mismatch hA hk f s, by rw [if_pos hA, State.setResult_result]⟩
    · exact ⟨_, exec_encodeOf_badConfig k hA f o s, by rw [if_neg hA, State.setResult_result]⟩
  · simp only [← legalWidth_iff]
    by_cases hA : legalWidth cfg.ioaWidth
    · exact ⟨_, exec_decodeOf_short k hA hb s, by rw [if_pos hA, State.setResult_result]⟩
    · exact ⟨_, exec_decodeOf_badConfig k hA buf off s, by rw [if_neg hA, State.setResult_result]⟩

/-! ## Exactly when a request faults (R161)

None of the conditions below reads a qualifier byte or a byte of a buffer. -/

/-- An answered state determines the result it was given. -/
theorem next_setResult_inj {s : State} {r r' : Result} :
    (Host.Outcome.next (s.setResult r) : Out) = .next (s.setResult r') ↔ r = r' :=
  ⟨fun h => Option.some.inj (congrArg State.result (Host.Outcome.next.inj h)), fun h => h ▸ rfl⟩

/-- A delivered computation faults exactly when it failed. -/
theorem deliver_eq_fault_iff {α : Type} {out : α → Value} {x : Except Cause α} {s : State} {c : Cause} :
    deliver out x s = .next (s.setResult (.fault c)) ↔ x = .error c := by
  cases x with
  | ok a => rw [deliver_ok, next_setResult_inj]; simp
  | error d => rw [deliver_error, next_setResult_inj]; simp

/-- DecodeK of a legal width succeeds on every wire length of bytes. -/
theorem decodeK_succeeds {k : Kind} {cfg : Cfg} {buf : Bytes} {off : Nat} (C : IoaCodec) (T : TsCodec)
    (hA : legalWidth cfg.ioaWidth) (hb : off + wireLen k cfg.ioaWidth ≤ buf.length) :
    ∃ r, decodeK C T k cfg buf off = .ok r := by
  cases hk : k.hasTs with
  | false =>
    rw [wireLen_plain _ hk] at hb
    exact ⟨_, decodeK_plain hA hk hb⟩
  | true =>
    rw [wireLen_stamped _ hk] at hb
    obtain ⟨w, -, hd⟩ := decodeK_stamped (C := C) (T := T) hA hk hb
    exact ⟨_, hd⟩

section
variable {k : Kind} {cfg : Cfg} {s : State} {c : Cause}

theorem exec_encodeOf_eq_fault_iff {f : Bytes} {o : Cmd} :
    exec (.encodeOf k cfg f o) s = .next (s.setResult (.fault c)) ↔
      (¬ legalWidth cfg.ioaWidth ∧ .badConfig cfg.ioaWidth = c) ∨
      (legalWidth cfg.ioaWidth ∧ (o.kind ≠ k ∨ k.hasTs = true ∧ o.ts = none) ∧ .operandMismatch o.kind = c) := by
  rw [exec_encodeOf, deliver_eq_fault_iff]
  by_cases hA : legalWidth cfg.ioaWidth
  case neg => simp [encodeK_badConfig, hA]
  by_cases hk : o.kind = k
  case neg => simp [encodeK_mismatch, hA, hk]
  cases hts : k.hasTs with
  | false => simp [encodeK_plain, hA, hk, hts]
  | true =>
    cases ho : o.ts with
    | some t => simp [encodeK_stamped, hA, hk, hts, ho]
    | none => simp [encodeK, hA, hk, hts, ho]

theorem exec_decodeOf_eq_fault_iff {buf : Bytes} {off : Nat} :
    exec (.decodeOf k cfg buf off) s = .next (s.setResult (.fault c)) ↔
      (¬ legalWidth cfg.ioaWidth ∧ .badConfig cfg.ioaWidth = c) ∨
      (legalWidth cfg.ioaWidth ∧ buf.length < off + wireLen k cfg.ioaWidth ∧
        .malformedInput off (wireLen k cfg.ioaWidth) buf.length = c) := by
  rw [exec_decodeOf, deliver_eq_fault_iff]
  by_cases hA : legalWidth cfg.ioaWidth
  case neg => simp [decodeK_badConfig, hA]
  by_cases hb : buf.length < off + wireLen k cfg.ioaWidth
  · simp [decodeK_short, hA, hb]
  · obtain ⟨r, hr⟩ := decodeK_succeeds s.ioaCodec s.tsCodec hA (Nat.le_of_not_lt hb)
    simp [hr, hA, hb]

theorem exec_readTs_eq_fault_iff {buf : Bytes} {pos : Nat} :
    exec (.readTs buf pos) s = .next (s.setResult (.fault c)) ↔
      buf.length < pos + 7 ∧ .malformedInput pos 7 buf.length = c := by
  rw [exec_readTs, deliver_eq_fault_iff]
  by_cases hb : buf.length < pos + 7
  · simp [readTs_short hb, hb]
  · obtain ⟨w, -, hr⟩ := readTs_ok (T := s.tsCodec) (Nat.le_of_not_lt hb)
    simp [hr, hb]

theorem exec_getTs_eq_fault_iff {o : Cmd} :
    exec (.getTs o) s = .next (s.setResult (.fault c)) ↔
      (o.kind.hasTs = false ∨ o.ts = none) ∧ .operandMismatch o.kind = c := by
  by_cases h : o.kind.hasTs = false ∨ o.ts = none
  · rw [exec_getTs_mismatch h, next_setResult_inj]
    simp [h]
  · obtain ⟨hk, ho⟩ := not_or.1 h
    obtain ⟨t, ht⟩ := Option.ne_none_iff_exists'.1 ho
    rw [exec_getTs_some (Bool.eq_true_of_not_eq_false hk) ht, next_setResult_inj]
    simp [h]

end

/-- No request but ENCODE, DECODE, GET_TS and READ_TS faults. -/
theorem exec_ok {i : Instr} (he : ∀ k, i.op ≠ .encode k) (hd : ∀ k, i.op ≠ .decode k) (hg : i.op ≠ .getTs)
    (hr : i.op ≠ .readTs) (s : State) : ∃ v, exec i s = .next (s.setResult (.ok v)) := by
  cases i with
  | packSco | unpackSco | packDcq | unpackDcq => exact ⟨_, rfl⟩
  | buildSc | buildSct | buildDc | buildDct | buildStep => exact ⟨_, rfl⟩
  | encodeSc | encodeSct | encodeDc | encodeDct | encodeStep => exact absurd rfl (he _)
  | decodeSc | decodeSct | decodeDc | decodeDct | decodeStep => exact absurd rfl (hd _)
  | getIoa | getSelect | getQu => exact ⟨_, rfl⟩
  | getState o => exact ⟨_, exec_getState o s⟩
  | getTs => exact absurd rfl hg
  | appendTs => exact ⟨_, rfl⟩
  | readTs => exact absurd rfl hr

/-- Settles O37: by when each request that can fault does so, which the other qualifier byte and the other buffer of the
same length leave as it was. -/
theorem whatNeverFaults : Obligations.WhatNeverFaults := by
  refine ⟨fun i s h => ?_,
    fun _ _ _ o _ _ _ h => exec_encodeOf_eq_fault_iff.2 (exec_encodeOf_eq_fault_iff (o := o).1 h),
    fun _ _ _ _ _ _ _ hlen h => exec_decodeOf_eq_fault_iff.2 (hlen ▸ exec_decodeOf_eq_fault_iff.1 h),
    fun o _ _ _ h => exec_getTs_eq_fault_iff.2 (exec_getTs_eq_fault_iff (o := o).1 h),
    fun _ _ _ _ _ hlen h => exec_readTs_eq_fault_iff.2 (hlen ▸ exec_readTs_eq_fault_iff.1 h)⟩
  refine exec_ok (fun _ hi => ?_) (fun _ hi => ?_) (fun hi => ?_) (fun hi => ?_) s <;> (rw [hi] at h; exact h)

end Sys2Proof.Machine
end

section
/-! PROOFS. What a request changes, the default address codec (R7), and the round trips of ENCODE with DECODE (R136)
and of APPEND_TS with READ_TS (R153). -/

namespace Sys2Proof.Machine

/-! ## What a request changes -/

/-- The state that a request answered is the state it ran in, with its result. -/
theorem eq_setResult_of_exec {i : Instr} {s t : State} {r : Result} (h : exec i s = .next t)
    (ht : t.result = some r) : t = s.setResult r := by
  obtain ⟨x, hx⟩ := exec_next i s
  obtain rfl := Host.Outcome.next.inj (hx.symm.trans h)
  obtain rfl := Option.some.inj ht
  rfl

/-- Settles O44: no request does more than end with a result. -/
theorem execChangesResultOnly : Obligations.ExecChangesResultOnly := exec_next

/-! ## The default address codec (R7) -/

/-- The default segment of an address: its low byte, then the segment of what is left of it. -/
theorem ioaEncode_lsbFirst_succ (ioa A : Nat) :
    ioaEncode .lsbFirst ioa (A + 1) = BitVec.ofNat 8 ioa :: ioaEncode .lsbFirst (ioa / 256) A := by
  simp [ioaEncode, List.range_succ_eq_map, Nat.shiftRight_eq_div_pow, Nat.div_div_eq_div_mul, pow_mul, pow_succ']

theorem ioaDecode_lsbFirst_cons (b : Byte) (x : Bytes) :
    ioaDecode .lsbFirst (b :: x) = b.toNat + 256 * ioaDecode .lsbFirst x := rfl

/-- The default codec reads back the address it wrote, truncated to the segment. -/
theorem ioaDecode_ioaEncode_lsbFirst (ioa A : Nat) :
    ioaDecode .lsbFirst (ioaEncode .lsbFirst ioa A) = ioa % 256 ^ A := by
  induction A generalizing ioa with
  | zero => rw [pow_zero, Nat.mod_one]; rfl
  | succ A ih =>
    rw [ioaEncode_lsbFirst_succ, ioaDecode_lsbFirst_cons, ih, pow_succ', Nat.mod_mul, BitVec.toNat_ofNat]

theorem ioaDecode_lsbFirst_lt (x : Bytes) : ioaDecode .lsbFirst x < 256 ^ x.length := by
  induction x with
  | nil => exact Nat.one_pos
  | cons b x ih =>
    rw [ioaDecode_lsbFirst_cons, List.length_cons, pow_succ']
    have hb : b.toNat < 256 := b.isLt
    omega

/-- The default codec writes every segment it read as it was. -/
theorem ioaEncode_ioaDecode_lsbFirst (x : Bytes) :
    ioaEncode .lsbFirst (ioaDecode .lsbFirst x) x.length = x := by
  induction x with
  | nil => rfl
  | cons b x ih =>
    have hlow : BitVec.ofNat 8 (b.toNat + 256 * ioaDecode .lsbFirst x) = b := by
      apply BitVec.eq_of_toNat_eq
      rw [BitVec.toNat_ofNat]
      omega
    have hrest : (b.toNat + 256 * ioaDecode .lsbFirst x) / 256 = ioaDecode .lsbFirst x := by
      have hb : b.toNat < 256 := b.isLt
      omega
    rw [ioaDecode_lsbFirst_cons, List.length_cons, ioaEncode_lsbFirst_succ, hlow, hrest, ih]

/-- Settles O22: by induction on the bytes of the segment. -/
theorem defaultIoaCodecLaws : Obligations.DefaultIoaCodecLaws :=
  ⟨ioaEncode_length, fun ioa _ _ hk => ioaEncode_lsbFirst_getElem? ioa hk, ioaDecode_ioaEncode_lsbFirst,
    fun x => ⟨ioaDecode_lsbFirst_lt x, ioaEncode_ioaDecode_lsbFirst x⟩⟩

/-! ## Decode, then encode (R136(a)) -/

/-- A slice of a buffer and the byte after it are a slice. -/
theorem take_drop_append_bufRead {buf : Bytes} {off n : Nat} (h : off + n < buf.length) :
    (buf.drop off).take n ++ [bufRead buf (off + n)] = (buf.drop off).take (n + 1) := by
  rw [List.take_add_one, List.getElem?_drop, bufRead_getElem? h, Option.toList_some]

/-- Two slices of a buffer, one after the other, are a slice. -/
theorem take_drop_append_take_drop (buf : Bytes) (off n m : Nat) :
    (buf.drop off).take n ++ (buf.drop (off + n)).take m = (buf.drop off).take (n + m) := by
  rw [List.take_add, List.drop_drop]

/-- EncodeK of an object that DecodeK read appends the bytes it was read from, if the address codec writes every segment
of this width as it read it. -/
theorem encodeK_of_decodeK {C : IoaCodec} {T : TsCodec} {k : Kind} {cfg : Cfg} {buf : Bytes} {off next : Nat} {o : Cmd}
    (hC : ∀ x : Bytes, x.length = cfg.ioaWidth → ioaEncode C (ioaDecode C x) cfg.ioaWidth = x)
    (h : decodeK C T k cfg buf off = .ok (o, next)) (f : Bytes) :
    encodeK C T k cfg f o = .ok (f ++ (buf.drop off).take (next - off)) := by
  obtain ⟨hA, hb, -⟩ := decodeK_ok h
  have hioa : ioaEncode C (ioaDecode C ((buf.drop off).take cfg.ioaWidth)) cfg.ioaWidth =
      (buf.drop off).take cfg.ioaWidth := by
    apply hC
    rw [wireLen_eq] at hb
    rw [List.length_take, List.length_drop]
    omega
  cases hk : k.hasTs with
  | false =>
    rw [wireLen_plain _ hk] at hb
    rw [decodeK_plain hA hk hb] at h
    obtain ⟨rfl, rfl⟩ := Prod.mk.inj (Except.ok.inj h)
    rw [encodeK_plain (o := ⟨k, _, _, none⟩) hA rfl hk, hioa, Nat.add_sub_cancel_left, List.append_assoc,
      take_drop_append_bufRead (by omega)]
  | true =>
    rw [wireLen_stamped _ hk] at hb
    obtain ⟨w, hw, hd⟩ := decodeK_stamped (C := C) (T := T) hA hk hb
    obtain ⟨rfl, rfl⟩ := Prod.mk.inj (Except.ok.inj (hd.symm.trans h))
    rw [encodeK_stamped (o := ⟨k, _, _, some _⟩) hA rfl hk rfl, hioa, Nat.add_sub_cancel_left, tsEncode_tsDecode,
      hw, List.append_assoc f, take_drop_append_bufRead (by omega), List.append_assoc, Nat.add_assoc off,
      take_drop_append_take_drop]

/-- Settles O20: EncodeK of what DecodeK read; the default codec has the hypothesis at every width. -/
theorem encodeUndoesDecode : Obligations.EncodeUndoesDecode := by
  refine ⟨fun k cfg buf f off next obj s t hC h ht => ?_, ioaEncode_ioaDecode_lsbFirst⟩
  obtain rfl := eq_setResult_of_exec h ht
  rw [exec_decodeOf] at h
  obtain ⟨⟨_, _⟩, hr, hv⟩ := deliver_eq_ok h ht
  obtain ⟨rfl, rfl⟩ := Value.decoded.inj hv
  rw [exec_encodeOf, State.setResult_ioaCodec, State.setResult_tsCodec, encodeK_of_decodeK hC hr]
  rfl

/-! ## Encode, then decode (R136(b), (c)) -/

/-- Where the parts of a frame stand in it: an address segment, the qualifier byte after it, and the rest. -/
theorem segments_of_frame (f seg rest : Bytes) (q : Byte) :
    ((f ++ seg ++ [q] ++ rest).drop f.length).take seg.length = seg ∧
    bufRead (f ++ seg ++ [q] ++ rest) (f.length + seg.length) = q ∧
    (f ++ seg ++ [q] ++ rest).drop (f.length + seg.length + 1) = rest := by
  refine ⟨?_, ?_, ?_⟩
  · simp
  · rw [bufRead_of_lt (by simp)]
    simp
  · exact List.drop_left' (by simp [Nat.add_assoc])

/-- DecodeK, at the place where EncodeK appended a well-formed object, reads the object, but for its address, which is
as the codec reads it back; and it ends where the frame ended. -/
theorem decodeK_of_encodeK {C : IoaCodec} {T : TsCodec} {k : Kind} {cfg : Cfg} {f w : Bytes} {o : Cmd}
    (ho : o.wf = true) (h : encodeK C T k cfg f o = .ok w) (g : Bytes) :
    decodeK C T k cfg (w ++ g) f.length =
      .ok (⟨k, ioaDecode C (ioaEncode C o.ioa cfg.ioaWidth), o.q, o.ts⟩, w.length) := by
  obtain ⟨hA, hkind, ⟨hk, rfl⟩ | ⟨t, hk, hts, rfl⟩⟩ := encodeK_ok h
  · have hts : o.ts = none := by simpa [Cmd.wf, hkind, hk] using ho
    obtain ⟨hseg, hq, -⟩ := segments_of_frame f (ioaEncode C o.ioa cfg.ioaWidth) g o.q
    rw [ioaEncode_length] at hseg hq
    rw [decodeK_plain hA hk (by simp), hseg, hq, hts]
    simp
  · obtain ⟨hseg, hq, hrest⟩ := segments_of_frame f (ioaEncode C o.ioa cfg.ioaWidth) (tsEncode T t ++ g) o.q
    rw [ioaEncode_length] at hseg hq hrest
    rw [List.append_assoc _ (tsEncode T t) g]
    obtain ⟨v, hv, hd⟩ := decodeK_stamped (C := C) (T := T) hA hk
      (show f.length + (cfg.ioaWidth + 8) ≤
        (f ++ ioaEncode C o.ioa cfg.ioaWidth ++ [o.q] ++ (tsEncode T t ++ g)).length by simp)
    have ht : tsDecode T v = t := by
      apply tsEncode_inj (T := T)
      rw [tsEncode_tsDecode, hv, hrest, List.take_left' (tsEncode_length T t)]
    rw [hd, hseg, hq, ht, hts]
    simp

/-- Settles O21: DecodeK of what EncodeK wrote, with the address that the default codec reads back. -/
theorem decodeUndoesEncode : Obligations.DecodeUndoesEncode := by
  intro k cfg f w g o s t ho h ht
  obtain rfl := eq_setResult_of_exec h ht
  rw [exec_encodeOf] at h
  obtain ⟨w', hw, hv⟩ := deliver_eq_ok h ht
  obtain rfl := Value.frame.inj hv
  obtain ⟨xs, hxs, hlen⟩ := encodeK_appends hw
  refine ⟨_, rfl, fun hC => by rw [hC, ioaDecode_ioaEncode_lsbFirst], ?_, by rw [hxs, List.length_append, hlen]⟩
  rw [exec_decodeOf, State.setResult_ioaCodec, State.setResult_tsCodec, decodeK_of_encodeK ho hw]
  rfl

/-! ## APPEND_TS and READ_TS (R153) -/

/-- Settles O29: READ_TS reads the segment that APPEND_TS wrote. -/
theorem readTsAfterAppendTs : Obligations.ReadTsAfterAppendTs := by
  intro f w g ts s t h ht
  obtain rfl := Host.Outcome.next.inj ((exec_appendTs f ts s).symm.trans h)
  obtain rfl : appendTs s.tsCodec f ts = w := by simpa [appendTs, frameAppend] using ht
  rw [exec_readTs, State.setResult_tsCodec, readTs_appendTs]
  rfl

/-- Settles O52: READ_TS succeeded, so seven bytes stand there, and the codec writes what it read from them as them. -/
theorem appendTsAfterReadTs : Obligations.AppendTsAfterReadTs := by
  intro buf f pos ts s t h ht
  by_cases hb : pos + 7 ≤ buf.length
  · obtain ⟨w, hw, hx⟩ := exec_readTs_ok hb s
    obtain rfl := Host.Outcome.next.inj (hx.symm.trans h)
    obtain rfl : tsDecode s.tsCodec w = ts := by simpa using ht
    rw [exec_appendTs, State.setResult_tsCodec, tsEncode_tsDecode, hw]
    rfl
  · obtain rfl := Host.Outcome.next.inj ((exec_readTs_short (Nat.lt_of_not_le hb) s).symm.trans h)
    simp at ht

end Sys2Proof.Machine
end

section
/-! PROOFS. The round trips of the request encoding (30_encoding.md Part B). -/

namespace Sys2Proof

@[simp] theorem operands_encodeOf (k : Kind) (cfg : Cfg) (f : Bytes) (o : Cmd) :
    (Instr.encodeOf k cfg f o).operands = .e cfg f o := by
  cases k <;> rfl

@[simp] theorem operands_decodeOf (k : Kind) (cfg : Cfg) (buf : Bytes) (off : Nat) :
    (Instr.decodeOf k cfg buf off).operands = .d cfg buf off := by
  cases k <;> rfl

/-- An instruction is put together from its own operation and bundle. -/
theorem assemble_operands (i : Instr) : i.op.assemble i.operands = some i := by
  cases i <;> rfl

/-- An operation and a bundle that go together are those of the instruction they make. -/
theorem op_operands_of_assemble {op : Op} {args : Operands} {i : Instr} (h : op.assemble args = some i) :
    i.op = op ∧ i.operands = args := by
  unfold Op.assemble at h
  split at h
  -- ENCODE and DECODE, of every kind at once
  case h_10 | h_11 =>
    obtain rfl := Option.some.inj h
    simp
  case h_19 => cases h
  all_goals
    obtain rfl := Option.some.inj h
    exact ⟨rfl, rfl⟩

/-- The decoder accepts exactly the well-formed instructions, each under its own operation byte and bundle. -/
theorem decode_eq_ok_iff {opc : Byte} {args : Operands} {i : Instr} :
    decode opc args = .ok i ↔ i.wf = true ∧ encode i = (opc, args) := by
  constructor
  · intro h
    refine ⟨decode_wf h, ?_⟩
    unfold decode at h
    split at h
    next => cases h
    next op hop =>
      split at h
      next => cases h
      next j hj =>
        split at h
        next =>
          obtain rfl := Except.ok.inj h
          obtain ⟨rfl, rfl⟩ := op_operands_of_assemble hj
          exact Prod.ext (opc_decodeOpc _ _ hop) rfl
        next => cases h
  · rintro ⟨hw, he⟩
    obtain ⟨rfl, rfl⟩ := Prod.mk.inj he
    simp [decode, decodeOpc_opc, assemble_operands, hw]

/-- Settles O38: an instruction's own operation byte and bundle are accepted, and as that instruction. -/
theorem decodeOfEncodeIsIdentity : Obligations.DecodeOfEncodeIsIdentity := fun _ hw =>
  decode_eq_ok_iff.2 ⟨hw, rfl⟩

/-- Settles O39: the decoder accepts nothing else. -/
theorem encodeOfDecodeIsIdentity : Obligations.EncodeOfDecodeIsIdentity := fun _ _ _ => decode_eq_ok_iff.1

/-- A pair that spells a well-formed instruction is read as that instruction. -/
theorem spells_of_encode {opc : Byte} {args : Operands} {i : Instr} (he : encode i = (opc, args)) (hw : i.wf = true) :
    decode opc args = .ok i ∧ encode i = (opc, args) :=
  ⟨decode_eq_ok_iff.2 ⟨hw, he⟩, he⟩

/-- Settles O41: each word is the one the opcode map gives the request's operation. -/
theorem opcodeMapWords : Obligations.OpcodeMapWords := by
  refine ⟨?_, ?_, ?_, ?_, ?_, ?_, ?_, ?_, ?_, fun cfg f o hw => ?encode, ?decode, fun o hw => ?accessors, ?_, ?_, rfl⟩
  case encode =>
    exact ⟨spells_of_encode rfl hw, spells_of_encode rfl hw, spells_of_encode rfl hw, spells_of_encode rfl hw,
      spells_of_encode rfl hw⟩
  case accessors =>
    exact ⟨spells_of_encode rfl hw, spells_of_encode rfl hw, spells_of_encode rfl hw, spells_of_encode rfl hw,
      spells_of_encode rfl hw⟩
  case decode =>
    intros
    exact ⟨spells_of_encode rfl rfl, spells_of_encode rfl rfl, spells_of_encode rfl rfl, spells_of_encode rfl rfl,
      spells_of_encode rfl rfl⟩
  all_goals
    intros
    exact spells_of_encode rfl rfl

end Sys2Proof
end

section
/-! PROOFS. The laws of the two qualifier pairs (R104, R105), and the source's mask forms (R63). -/

namespace Sys2Proof.Machine

/-! ## Masks of a byte -/

/-- Bytes that agree under a mask differ in no bit of it. -/
theorem xor_and_eq_zero {x y m : Byte} (h : x &&& m = y &&& m) : (x ^^^ y) &&& m = 0 := by
  have hdistrib : (x ^^^ y) &&& m = (x &&& m) ^^^ (y &&& m) := by
    ext
    simp [Bool.and_xor_distrib_right]
  rw [hdistrib, h]
  exact BitVec.xor_self

/-! ## The SCO pair (R104) -/

/-- Packing the fields of a byte clears its bit 1. -/
theorem packSco_fields (b : Byte) : packSco (scoState b) (selField b) (quField b) = b &&& 0xFD := by
  revert b
  decide

theorem and_clear_bit1_eq_self_iff (b : Byte) : b &&& 0xFD = b ↔ b.getLsbD 1 = false := by
  revert b
  decide

theorem quField_lt (b : Byte) : quField b < 32 := by
  rw [quField_eq]
  omega

theorem dcqState_lt (b : Byte) : dcqState b < 4 := by
  rw [dcqState_eq]
  omega

/-- Each operand of PACK_SCO stands in its own bits: select in bit 7, the state in bit 0, and no other bit than QU's
depends on QU. -/
theorem packSco_own_bits (c sel : Bool) (qu : Int) :
    packSco c true qu ^^^ packSco c false qu = 0x80 ∧ packSco true sel qu ^^^ packSco false sel qu = 0x01 ∧
      packSco c sel qu &&& 0x83 = packSco c sel 0 &&& 0x83 := by
  obtain ⟨n, hn⟩ := exists_fin32 qu
  simp only [packSco_of_fin hn]
  clear hn
  revert c sel n
  decide

theorem packSco_emod (c sel : Bool) (qu : Int) : packSco c sel qu = packSco c sel (qu % 32) := by
  simp [packSco, quBits]

/-- PACK_SCO is injective on the ranges: its operands are the fields of its byte. -/
theorem packSco_inj {c c' sel sel' : Bool} {qu qu' : Int} (h0 : 0 ≤ qu) (h1 : qu < 32) (h0' : 0 ≤ qu') (h1' : qu' < 32)
    (h : packSco c sel qu = packSco c' sel' qu') : c = c' ∧ sel = sel' ∧ qu = qu' := by
  obtain ⟨hc, hqu, hsel⟩ := scoFields_packSco c sel qu
  obtain ⟨hc', hqu', hsel'⟩ := scoFields_packSco c' sel' qu'
  rw [h] at hc hqu hsel
  exact ⟨hc.symm.trans hc', hsel.symm.trans hsel', by omega⟩

/-- Settles O5: by the fields of a packed byte and the packing of a byte's fields. -/
theorem scoPackUnpackLaws : Obligations.ScoPackUnpackLaws := by
  refine ⟨fun c sel qu s t b h ht => ?_, fun b => ?_, fun b => ⟨fun hb => ?_, ?_⟩,
    fun _ _ _ _ _ _ h0 h1 h0' h1' h => packSco_inj h0 h1 h0' h1' h, packSco_emod, fun c sel qu qu' => ?_⟩
  · obtain rfl := Host.Outcome.next.inj ((exec_packSco c sel qu s).symm.trans h)
    obtain rfl : packSco c sel qu = b := by simpa using ht
    obtain ⟨hstate, hqu, hsel⟩ := scoFields_packSco c sel qu
    rw [exec_unpackSco, hstate, hqu, hsel]
    rfl
  · rw [packSco_fields]
    exact ⟨rfl, and_clear_bit1_eq_self_iff b⟩
  · have hq := quField_lt b
    exact ⟨scoState b, selField b, quField b, by omega, by omega,
      (packSco_fields b).trans ((and_clear_bit1_eq_self_iff b).2 hb)⟩
  · rintro ⟨c, sel, qu, -, -, rfl⟩
    exact packSco_bit1 c sel qu
  · obtain ⟨hsel, hstate, hqu⟩ := packSco_own_bits c sel qu
    obtain ⟨-, -, hqu'⟩ := packSco_own_bits c sel qu'
    exact ⟨hsel, hstate, xor_and_eq_zero (hqu.trans hqu'.symm)⟩

/-! ## The DCQ pair (R105) -/

/-- Packing the fields of a byte gives the byte: every bit is a field's. -/
theorem packDcq_fields (b : Byte) : packDcq (dcqState b) (selField b) (quField b) = b := by
  revert b
  decide

/-- Each operand of PACK_DCQ stands in its own bits: select in bit 7, no other bit than the state's depends on the
state, and no other bit than QU's on QU. -/
theorem packDcq_own_bits (c : Int) (sel : Bool) (qu : Int) :
    packDcq c true qu ^^^ packDcq c false qu = 0x80 ∧ packDcq c sel qu &&& 0xFC = packDcq 0 sel qu &&& 0xFC ∧
      packDcq c sel qu &&& 0x83 = packDcq c sel 0 &&& 0x83 := by
  obtain ⟨m, hm⟩ := exists_fin4 c
  obtain ⟨n, hn⟩ := exists_fin32 qu
  rw [packDcq_of_fin hm hn, packDcq_of_fin hm hn, packDcq_of_fin hm hn, packDcq_of_fin (m := 0) rfl hn,
    packDcq_of_fin (n := 0) hm rfl]
  clear hm hn
  revert sel m n
  decide

theorem packDcq_emod (c : Int) (sel : Bool) (qu : Int) : packDcq c sel qu = packDcq (c % 4) sel (qu % 32) := by
  simp [packDcq, quBits]

/-- PACK_DCQ is injective on the ranges: its operands are the fields of its byte. -/
theorem packDcq_inj {c c' : Int} {sel sel' : Bool} {qu qu' : Int} (hc0 : 0 ≤ c) (hc4 : c < 4) (hc0' : 0 ≤ c')
    (hc4' : c' < 4) (h0 : 0 ≤ qu) (h1 : qu < 32) (h0' : 0 ≤ qu') (h1' : qu' < 32)
    (h : packDcq c sel qu = packDcq c' sel' qu') : c = c' ∧ sel = sel' ∧ qu = qu' := by
  obtain ⟨hc, hqu, hsel⟩ := dcqFields_packDcq c sel qu
  obtain ⟨hc', hqu', hsel'⟩ := dcqFields_packDcq c' sel' qu'
  rw [h] at hc hqu hsel
  exact ⟨by omega, hsel.symm.trans hsel', by omega⟩

/-- Settles O6: by the fields of a packed byte and the packing of a byte's fields. -/
theorem dcqPackUnpackLaws : Obligations.DcqPackUnpackLaws := by
  refine ⟨fun c sel qu s t b h ht => ?_, packDcq_fields,
    fun _ _ _ _ _ _ hc0 hc4 hc0' hc4' h0 h1 h0' h1' h => packDcq_inj hc0 hc4 hc0' hc4' h0 h1 h0' h1' h, packDcq_emod,
    fun c c' sel qu qu' => ?_⟩
  · obtain rfl := Host.Outcome.next.inj ((exec_packDcq c sel qu s).symm.trans h)
    obtain rfl : packDcq c sel qu = b := by simpa using ht
    obtain ⟨hstate, hqu, hsel⟩ := dcqFields_packDcq c sel qu
    rw [exec_unpackDcq, hstate, hqu, hsel]
    rfl
  · obtain ⟨hsel, hstate, hqu⟩ := packDcq_own_bits c sel qu
    obtain ⟨-, hstate', -⟩ := packDcq_own_bits c' sel qu
    obtain ⟨-, -, hqu'⟩ := packDcq_own_bits c sel qu'
    exact ⟨hsel, xor_and_eq_zero (hstate.trans hstate'.symm), xor_and_eq_zero (hqu.trans hqu'.symm)⟩

/-! ## The source's mask forms (R63) -/

/-- Masking the low bits of a two's-complement integer of any width that has them leaves its remainder. -/
theorem toNat_ofInt_and_mask {w n : Nat} (hn : n ≤ w) (x : Int) :
    (BitVec.ofInt w x &&& BitVec.ofNat w (2 ^ n - 1)).toNat = (x % (2 ^ n : Nat)).toNat := by
  have hw : 2 ^ n ≤ 2 ^ w := Nat.pow_le_pow_right (by omega) hn
  have hpos : 0 < 2 ^ n := Nat.two_pow_pos n
  have hmod : x % (2 ^ w : Nat) % (2 ^ n : Nat) = x % (2 ^ n : Nat) :=
    Int.emod_emod_of_dvd x (Int.natCast_dvd_natCast.2 (pow_dvd_pow 2 hn))
  rw [BitVec.toNat_and, BitVec.toNat_ofInt, BitVec.toNat_ofNat, Nat.mod_eq_of_lt (by omega),
    Nat.and_two_pow_sub_one_eq_mod, ← hmod,
    Int.toNat_emod (Int.emod_nonneg x (by omega)) (Int.natCast_nonneg _), Int.toNat_natCast]

theorem toNat_and_qu_mask {w : Nat} (hw : 5 ≤ w) (qu : Int) :
    (BitVec.ofInt w qu &&& BitVec.ofNat w 0x1F).toNat = (qu % 32).toNat := toNat_ofInt_and_mask hw qu

theorem toNat_and_state_mask {w : Nat} (hw : 5 ≤ w) (cmd : Int) :
    (BitVec.ofInt w cmd &&& BitVec.ofNat w 0x03).toNat = (cmd % 4).toNat :=
  toNat_ofInt_and_mask (n := 2) (by omega) cmd

theorem quBits_eq (qu : Int) : quBits qu = BitVec.ofNat 8 ((qu % 32).toNat * 4) := by
  apply BitVec.eq_of_toNat_eq
  simp [quBits, Nat.shiftLeft_eq]

/-- The state and QU bits of a DCQ byte have no bit in common. -/
theorem state_and_quBits (cmd qu : Int) : BitVec.ofNat 8 (cmd % 4).toNat &&& quBits qu = 0 := by
  obtain ⟨m, hm⟩ := exists_fin4 cmd
  obtain ⟨n, hn⟩ := exists_fin32 qu
  rw [quBits_eq, hm, hn]
  clear hm hn
  revert m n
  decide

theorem fields_eq_masks (b : Byte) : scoState b = decide (b &&& 0x01 = 0x01) ∧ dcqState b = (b &&& 0x03).toNat ∧
    quField b = (b &&& 0x7C).toNat / 4 ∧ selField b = decide (b &&& 0x80 = 0x80) := by
  revert b
  decide

/-- Settles O7: a mask of low bits is a remainder, and the two terms of the DCQ byte stand in different bits. -/
theorem qualifierMaskFormsAgree : Obligations.QualifierMaskFormsAgree := by
  refine ⟨fields_eq_masks, fun w qu cmd sel hw => ?_, fun w cmd qu sel hw => ?_, fun w cmd qu hw => ?_⟩
  · rw [toNat_and_qu_mask hw, ← quBits_eq]
    cases cmd <;> cases sel <;> simp [packSco]
  · rw [toNat_and_qu_mask hw, toNat_and_state_mask hw, ← quBits_eq]
    cases sel <;> simp [packDcq]
  · rw [toNat_and_qu_mask hw, toNat_and_state_mask hw, ← quBits_eq]
    exact ⟨state_and_quBits cmd qu, BitVec.add_eq_or_of_and_eq_zero _ _ (state_and_quBits cmd qu)⟩

end Sys2Proof.Machine
end

section
/-! PROOFS. The fault table by request (R162). -/

namespace Sys2Proof.Machine

theorem encodeOf_mayFault (k : Kind) {cfg : Cfg} {f : Bytes} {o : Cmd} {s : State} {c : Cause}
    (h : exec (.encodeOf k cfg f o) s = .next (s.setResult (.fault c))) :
    Instr.mayFault (.encodeOf k cfg f o) c = true := by
  obtain ⟨-, rfl⟩ | ⟨-, -, rfl⟩ := exec_encodeOf_eq_fault_iff.1 h
  · cases k <;> rfl
  · cases k <;> rfl

theorem decodeOf_mayFault (k : Kind) {cfg : Cfg} {buf : Bytes} {off : Nat} {s : State} {c : Cause}
    (h : exec (.decodeOf k cfg buf off) s = .next (s.setResult (.fault c))) :
    Instr.mayFault (.decodeOf k cfg buf off) c = true := by
  obtain ⟨-, rfl⟩ | ⟨-, -, rfl⟩ := exec_decodeOf_eq_fault_iff.1 h
  · cases k <;> rfl
  · cases k <;> rfl

/-- Settles O36: by when, and with what, each request that can fault does so; the others answer a value. -/
theorem faultTableByRequest : Obligations.FaultTableByRequest := by
  intro i s t c h ht
  obtain rfl := eq_setResult_of_exec h ht
  cases i with
  | packSco | unpackSco | packDcq | unpackDcq => nomatch next_setResult_inj.1 h
  | buildSc | buildSct | buildDc | buildDct | buildStep => nomatch next_setResult_inj.1 h
  | getIoa | getSelect | getQu | appendTs => nomatch next_setResult_inj.1 h
  | getState o => nomatch next_setResult_inj.1 ((exec_getState o s).symm.trans h)
  | encodeSc => exact encodeOf_mayFault .sc h
  | encodeSct => exact encodeOf_mayFault .sct h
  | encodeDc => exact encodeOf_mayFault .dc h
  | encodeDct => exact encodeOf_mayFault .dct h
  | encodeStep => exact encodeOf_mayFault .step h
  | decodeSc => exact decodeOf_mayFault .sc h
  | decodeSct => exact decodeOf_mayFault .sct h
  | decodeDc => exact decodeOf_mayFault .dc h
  | decodeDct => exact decodeOf_mayFault .dct h
  | decodeStep => exact decodeOf_mayFault .step h
  | getTs =>
    obtain ⟨-, rfl⟩ := exec_getTs_eq_fault_iff.1 h
    rfl
  | readTs =>
    obtain ⟨-, rfl⟩ := exec_readTs_eq_fault_iff.1 h
    rfl

end Sys2Proof.Machine
end

section
/-! PROOFS. The results a request can end with, what a step can answer, and the invariant of a run. -/

namespace Sys2Proof.Machine

/-! ## The results are well formed -/

/-- A delivered computation ends with a well-formed result if its values are well formed. -/
theorem deliver_wf {α : Type} {out : α → Value} {x : Except Cause α} {s : State} {r : Result}
    (hx : ∀ a, x = .ok a → (out a).wf = true) (h : deliver out x s = .next (s.setResult r)) : r.wf = true := by
  cases x with
  | ok a =>
    obtain rfl := next_setResult_inj.1 h
    exact hx a rfl
  | error c =>
    obtain rfl := next_setResult_inj.1 h
    rfl

/-- Every request ends with a well-formed result, even one that was given an ill-formed object. -/
theorem exec_wf {i : Instr} {s : State} {r : Result} (h : exec i s = .next (s.setResult r)) : r.wf = true := by
  cases i with
  | packSco | packDcq | buildSc | buildSct | buildDc | buildDct | buildStep | getIoa | getSelect | getQu | appendTs =>
    obtain rfl := next_setResult_inj.1 h
    rfl
  | unpackSco b =>
    obtain rfl := next_setResult_inj.1 h
    exact decide_eq_true (quField_lt b)
  | unpackDcq b =>
    obtain rfl := next_setResult_inj.1 h
    simp [Result.wf, Value.wf, dcqState_lt, quField_lt]
  | encodeSc | encodeSct | encodeDc | encodeDct | encodeStep | readTs => exact deliver_wf (fun _ _ => rfl) h
  | decodeSc | decodeSct | decodeDc | decodeDct | decodeStep =>
    refine deliver_wf (fun a ha => ?_) h
    obtain ⟨-, -, -, hwf, -⟩ := decodeK_ok ha
    exact hwf
  | getState o =>
    rw [exec_getState] at h
    obtain rfl := next_setResult_inj.1 h
    cases o.kind.qk <;> rfl
  | getTs o =>
    by_cases hm : o.kind.hasTs = false ∨ o.ts = none
    · obtain rfl := next_setResult_inj.1 ((exec_getTs_mismatch hm s).symm.trans h)
      rfl
    · obtain ⟨hk, ho⟩ := not_or.1 hm
      obtain ⟨t, ht⟩ := Option.ne_none_iff_exists'.1 ho
      obtain rfl := next_setResult_inj.1 ((exec_getTs_some (Bool.eq_true_of_not_eq_false hk) ht s).symm.trans h)
      rfl

/-! ## What a step can answer -/

/-- The step of a well-typed request uses the request up and binds its result, which is what its meaning ends with or, for
a reserved `OPC`, the fault. -/
theorem step_answers {s : State} {r : Request} {rest : List Request} (hp : s.pending = r :: rest)
    (hr : r.wellTyped = true) : ∃ x, step s = .next (s.finish rest r.dst x) ∧
      ((∃ i, decode r.opc r.args = .ok i ∧ exec i (s.setPending rest) = .next ((s.setPending rest).setResult x)) ∨
        (decodeOpc r.opc = none ∧ x = .fault (.illegalRequest r.opc))) := by
  obtain ⟨i, hd, -⟩ | ⟨hd, hx⟩ | ⟨hi, -⟩ := perform_cases exec r (s.setPending rest)
  · obtain ⟨x, hx⟩ := exec_next i (s.setPending rest)
    exact ⟨x, step_of_decode hp hd hx, .inl ⟨i, hd, hx⟩⟩
  · exact ⟨.fault (.illegalRequest r.opc), (step_cons hp).trans hx, .inr ⟨hd, rfl⟩⟩
  · rw [hr] at hi
    cases hi

theorem step_illTyped {s : State} {r : Request} {rest : List Request} (hp : s.pending = r :: rest)
    (hr : r.wellTyped = false) : step s = .refused .illTypedOperands := by
  obtain ⟨i, hd, -⟩ | ⟨hd, -⟩ | ⟨-, hx⟩ := perform_cases exec r (s.setPending rest)
  · simp [Request.wellTyped, hd] at hr
  · rw [wellTyped_of_reserved hd] at hr
    cases hr
  · exact (step_cons hp).trans hx

/-- A step finds no request, or an ill-typed one, or answers a well-typed one. -/
theorem step_cases (s : State) :
    (s.pending = [] ∧ step s = .refused .noRequest) ∨
    ((∃ r rest, s.pending = r :: rest ∧ r.wellTyped = false) ∧ step s = .refused .illTypedOperands) ∨
    ((∃ r rest, s.pending = r :: rest ∧ r.wellTyped = true) ∧ ∃ t, step s = .next t) := by
  cases hp : s.pending with
  | nil => exact .inl ⟨rfl, step_empty hp⟩
  | cons r rest =>
    cases hr : r.wellTyped with
    | false => exact .inr (.inl ⟨⟨r, rest, rfl, hr⟩, step_illTyped hp hr⟩)
    | true =>
      obtain ⟨x, hx, -⟩ := step_answers hp hr
      exact .inr (.inr ⟨⟨r, rest, rfl, hr⟩, _, hx⟩)

/-- Settles O43: in each of the three cases of a step, which exclude each other. -/
theorem stepRefusesOnlyThese : Obligations.StepRefusesOnlyThese := by
  intro s
  obtain ⟨hp, hs⟩ | ⟨⟨r, rest, hp, hr⟩, hs⟩ | ⟨⟨r, rest, hp, hr⟩, t, hs⟩ := step_cases s
  · simp [hp, hs]
  · simp [hp, hs, hr]
  · simp [hp, hs, hr]

/-! ## The invariant of a run -/

/-- Binding a well-formed result and using the request up keeps the invariant. -/
theorem Inv.finish {s : State} {r : Request} {rest : List Request} {x : Result} (hI : Inv s)
    (hp : s.pending = r :: rest) (hx : x.wf = true) (dst : Nat) : Inv (s.finish rest dst x) where
  pending q hq := hI.pending q (by
    rw [State.finish_pending] at hq
    rw [hp]
    exact List.mem_cons_of_mem r hq)
  canonical := by
    cases x with
    | ok v => exact HostVars.set_wf hI.canonical dst v
    | fault c => exact hI.canonical
  vars p hvar := by
    cases x with
    | ok v =>
      obtain rfl | hold := HostVars.mem_set hvar
      · exact hx
      · exact hI.vars p hold
    | fault c => exact hI.vars p hvar
  result y hy := by
    rw [State.finish_result] at hy
    obtain rfl := Option.some.inj hy
    exact hx

/-- From a state with the invariant and a request pending, the step ends that request and keeps the invariant. -/
theorem Inv.step {s : State} {r : Request} {rest : List Request} (hI : Inv s) (hp : s.pending = r :: rest) :
    ∃ x, Machine.step s = .next (s.finish rest r.dst x) ∧ Inv (s.finish rest r.dst x) := by
  obtain ⟨x, hs, hx⟩ := step_answers hp (hI.pending r (by simp [hp]))
  refine ⟨x, hs, hI.finish hp ?_ r.dst⟩
  obtain ⟨i, -, hi⟩ | ⟨-, rfl⟩ := hx
  · exact exec_wf hi
  · rfl

/-- Settles O47: there is nothing at reset that could be ill typed. -/
theorem resetIsWellTyped : Obligations.ResetIsWellTyped :=
  ⟨rfl, rfl, rfl, rfl, rfl, ⟨nofun, HostVars.reset_wf, nofun, nofun⟩⟩

/-- Settles O48: a step that answers ended a request. -/
theorem stepKeepsWellTyped : Obligations.StepKeepsWellTyped := by
  intro s t hI h
  cases hp : s.pending with
  | nil =>
    rw [step_empty hp] at h
    cases h
  | cons r rest =>
    obtain ⟨x, hs, hI'⟩ := hI.step hp
    obtain rfl := Host.Outcome.next.inj (hs.symm.trans h)
    exact hI'

/-- Settles O49: the invariant's pending requests are well typed, and each of these is answered. -/
theorem noRequestIsStuck : Obligations.NoRequestIsStuck := by
  intro s req rest hI hp
  obtain ⟨x, hs, hx⟩ := step_answers hp (hI.pending req (by simp [hp]))
  exact ⟨_, x, hs, State.finish_pending .., State.finish_result .., x.status_le_four, hx⟩

/-- Settles O50: by induction on the pending requests, each of which one step ends. -/
theorem everyRunEnds : Obligations.EveryRunEnds := by
  intro s hI
  induction hp : s.pending generalizing s with
  | nil => exact ⟨s, rfl, hp, hI, rfl, rfl⟩
  | cons r rest ih =>
    obtain ⟨x, hs, hI'⟩ := hI.step hp
    obtain ⟨t, hrun, hpt, hIt, hC, hT⟩ := ih _ hI' (State.finish_pending ..)
    exact ⟨t, (core_run_next hs rest.length).trans hrun, hpt, hIt, by simpa using hC, by simpa using hT⟩

end Sys2Proof.Machine
end
